-- ==== Sys2Proof/Word.lean ====
section
/-! DEFINITION. The word of every port, register, command and operand (spec 00_scope.md R9 `WORD`, R11). -/

namespace Sys2Proof

/-- A 32-bit pattern (R11); each operand and register says whether it is read as `u32` (`toNat`) or `s32` (`toInt`). -/
abbrev Word := BitVec 32

/-- One byte of a transport below `CMD_IN` or `RES_OUT` (R76). -/
abbrev Byte := BitVec 8

end Sys2Proof
end

