-- ==== Sys2Proof/Syntax.lean ====
section
/-! DEFINITION. The commands, one constructor per row of spec/opcode_table.json (30_encoding.md R103). -/

namespace Sys2Proof

/-- A decoded command with its operands. The ignored fields (`RSV`, and `SEL` where R103 ignores it) are
not part of it: the core cannot tell them apart (R101, R106, log 15). -/
inductive Instr where
  /-- NOP, opcode 0x00 (R243). -/
  | nop
  /-- INIT, opcode 0x01 (R241). -/
  | init
  /-- RESUME, opcode 0x02 (R242). -/
  | resume
  /-- SETTIME, opcode 0x03 with `SEL = 0`; `v` is s32 Q31 (R131). -/
  | setTime (v : Word)
  /-- SETDEPTH, opcode 0x03 with `SEL = 1`; `v` is s32 Q31 (R132). -/
  | setDepth (v : Word)
  /-- PARAM_IGNORED, opcode 0x03 with any other `SEL`; the operand is consumed (R133). -/
  | paramIgnored (sel : BitVec 8) (v : Word)
  /-- BLOCK, opcode 0x04 (R138). -/
  | block
  /-- SAMPLE, opcode 0x05; `x` is s32 Q24 (R210). -/
  | sample (x : Word)
  /-- RDREG, opcode 0x06; `sel` is the register select (R244). -/
  | rdReg (sel : BitVec 8)
  /-- RESERVED, opcodes 0x07 to 0xFF (R107). -/
  | reserved (opc : BitVec 8)
deriving DecidableEq, Repr

end Sys2Proof
end

