-- ==== Sys2Proof/WellFormed.lean ====
section
/-! DEFINITION. Which terms of `Instr` stand for words of the command stream (30_encoding.md R103, R109). -/

namespace Sys2Proof

/-- PARAM_IGNORED covers the selectors 2 to 255 only (R109, R133) and RESERVED the opcodes 0x07 to 0xFF only
(R103, R107); every other command is well formed with every operand. -/
def Instr.wellFormed : Instr → Bool
  | .nop => true
  | .init => true
  | .resume => true
  | .setTime _ => true
  | .setDepth _ => true
  | .paramIgnored sel _ => decide (2 ≤ sel.toNat)
  | .block => true
  | .sample _ => true
  | .rdReg _ => true
  | .reserved opc => decide (7 ≤ opc.toNat)

/-- The mnemonic of the command's row in spec/opcode_table.json. -/
def Instr.mnemonic : Instr → String
  | .nop => "NOP"
  | .init => "INIT"
  | .resume => "RESUME"
  | .setTime _ => "SETTIME"
  | .setDepth _ => "SETDEPTH"
  | .paramIgnored _ _ => "PARAM_IGNORED"
  | .block => "BLOCK"
  | .sample _ => "SAMPLE"
  | .rdReg _ => "RDREG"
  | .reserved _ => "RESERVED"

end Sys2Proof
end

