-- ==== Sys2Proof/Decode.lean ====
section
/-! DEFINITION. Words of the command stream to commands and back (30_encoding.md): format C, the opcode map, the length
rule, the rows of spec/opcode_table.json, and the byte order of a transport (20_memory.md R76). -/

namespace Sys2Proof

/-! ## The fields of format C (R101) -/

/-- `OPC`, bits 31:24. -/
def opcOf (w : Word) : BitVec 8 := w.extractLsb' 24 8

/-- `RSV`, bits 23:8: no rule reads it (R106). -/
def rsvOf (w : Word) : BitVec 16 := w.extractLsb' 8 16

/-- `SEL`, bits 7:0. -/
def selOf (w : Word) : BitVec 8 := w.extractLsb' 0 8

/-- A command word of these fields. -/
def commandWord (opc : BitVec 8) (rsv : BitVec 16) (sel : BitVec 8) : Word := opc ++ rsv ++ sel

/-- Whether an operand word follows the command word: from `OPC` alone (R104). -/
def takesOperand (opc : BitVec 8) : Bool := opc == 0x03#8 || opc == 0x05#8

/-! ## Decoding -/

/-- Why no command can be read from a stream. Neither is an error of the block: it waits (R108, log 3). -/
inductive DecodeReject where
  /-- The stream is empty. -/
  | noCommand
  /-- A C1 command word has come and its operand word has not. -/
  | noOperand (opc : BitVec 8)
deriving DecidableEq, Repr

/-- PARAM by its selector (R109, R130, log 18). -/
def decodeParam (sel : BitVec 8) (operand : Word) : Instr :=
  if sel = 0x00#8 then .setTime operand
  else if sel = 0x01#8 then .setDepth operand
  else .paramIgnored sel operand

/-- The opcode map (R103). `operand` is used by the opcodes that take one. -/
def decodeFields (opc sel : BitVec 8) (operand : Word) : Instr :=
  if opc = 0x00#8 then .nop
  else if opc = 0x01#8 then .init
  else if opc = 0x02#8 then .resume
  else if opc = 0x03#8 then decodeParam sel operand
  else if opc = 0x04#8 then .block
  else if opc = 0x05#8 then .sample operand
  else if opc = 0x06#8 then .rdReg sel
  else .reserved opc

/-- The command of a command word and the word after it. -/
def decodeCommand (w operand : Word) : Instr := decodeFields (opcOf w) (selOf w) operand

/-- The first command of a stream and the words after it (R104, R108). -/
def decode : List Word → Except DecodeReject (Instr × List Word)
  | [] => .error .noCommand
  | w :: rest =>
    if takesOperand (opcOf w) then
      match rest with
      | [] => .error (.noOperand (opcOf w))
      | operand :: rest' => .ok (decodeCommand w operand, rest')
    else .ok (decodeCommand w 0#32, rest)

/-! ## Encoding (R113: software writes the ignored fields as zero) -/

/-- The words of a command. -/
def encode : Instr → List Word
  | .nop => [commandWord 0x00#8 0#16 0#8]
  | .init => [commandWord 0x01#8 0#16 0#8]
  | .resume => [commandWord 0x02#8 0#16 0#8]
  | .setTime v => [commandWord 0x03#8 0#16 0x00#8, v]
  | .setDepth v => [commandWord 0x03#8 0#16 0x01#8, v]
  | .paramIgnored sel v => [commandWord 0x03#8 0#16 sel, v]
  | .block => [commandWord 0x04#8 0#16 0#8]
  | .sample x => [commandWord 0x05#8 0#16 0#8, x]
  | .rdReg sel => [commandWord 0x06#8 0#16 sel]
  | .reserved opc => [commandWord opc 0#16 0#8]

/-! ## The rows of spec/opcode_table.json (R112) -/

/-- One row: a word matches it when `word & mask = pattern`. -/
structure OpcodeRow where
  mnemonic : String
  pattern : Word
  mask : Word
  operandWords : Nat
deriving DecidableEq, Repr

/-- The table, in the order in which R112 tries the rows. -/
def opcodeTable : List OpcodeRow :=
  [⟨"NOP", 0x00000000#32, 0xFF000000#32, 0⟩,
   ⟨"INIT", 0x01000000#32, 0xFF000000#32, 0⟩,
   ⟨"RESUME", 0x02000000#32, 0xFF000000#32, 0⟩,
   ⟨"SETTIME", 0x03000000#32, 0xFF0000FF#32, 1⟩,
   ⟨"SETDEPTH", 0x03000001#32, 0xFF0000FF#32, 1⟩,
   ⟨"PARAM_IGNORED", 0x03000000#32, 0xFF000000#32, 1⟩,
   ⟨"BLOCK", 0x04000000#32, 0xFF000000#32, 0⟩,
   ⟨"SAMPLE", 0x05000000#32, 0xFF000000#32, 1⟩,
   ⟨"RDREG", 0x06000000#32, 0xFF000000#32, 0⟩,
   ⟨"RESERVED", 0x00000000#32, 0x00000000#32, 0⟩]

/-- The row a word matches: the first one in the order of R112. -/
def rowOf (w : Word) : Option OpcodeRow := opcodeTable.find? fun r => w &&& r.mask == r.pattern

/-! ## A word of the opcode table as a stream -/

/-- The words of the command whose bits are `w`, first word in bits 31:0, bits above `nbits` zero: the command word, and
the operand word exactly where R104 asks for one. -/
def tableWords (nbits w : Nat) : List Word :=
  let bits := w % 2 ^ nbits
  let command := BitVec.ofNat 32 bits
  if takesOperand (opcOf command) then [command, BitVec.ofNat 32 (bits / 4294967296)] else [command]

/-- The command the decoder reads from those words. -/
def decodeTableWord (nbits w : Nat) : Option Instr :=
  match decode (tableWords nbits w) with
  | .ok (i, _) => some i
  | .error _ => none

/-! ## Byte order of a transport (R76) -/

/-- The four bytes of a word, least significant first. -/
def bytesOfWord (w : Word) : List Byte :=
  [w.extractLsb' 0 8, w.extractLsb' 8 8, w.extractLsb' 16 8, w.extractLsb' 24 8]

/-- The words a transport's bytes carry; one to three bytes at the end are no whole word yet. -/
def wordsOfBytes : List Byte → List Word
  | b₀ :: b₁ :: b₂ :: b₃ :: rest => (b₃ ++ b₂ ++ b₁ ++ b₀ : BitVec 32) :: wordsOfBytes rest
  | _ => []

end Sys2Proof
end

