-- ==== Sys2Proof/Machine/Arith.lean ====
section
/-! DEFINITION. The arithmetic of 00_scope.md R12 and R13, on exact integers. -/

namespace Sys2Proof.Machine

/-- `a >> n`: arithmetic right shift, `a // 2^n` with floor for every integer `a` (R12). -/
def asr (a : Int) (n : Nat) : Int := a / ((2 ^ n : Nat) : Int)

/-- `mulq(a, b, n) = (a * b) >> n`, the one product primitive (R13). -/
def mulq (a b : Int) (n : Nat) : Int := asr (a * b) n

/-- `sat32(v)`: saturation to the s32 range (R12). -/
def sat32 (v : Int) : Int := min (max v (-2147483648)) 2147483647

/-- The word that carries the integer `v`: its low 32 bits, two's complement when `v` is negative. R12 has every value
brought into range before it is written; where a state no run reaches after INIT breaks that, the low bits stay (log 8). -/
def wordOf (v : Int) : Word := BitVec.ofInt 32 v

end Sys2Proof.Machine
end

