-- ==== Sys2Proof/Config.lean ====
section
/-! DEFINITION. What is fixed for one block: the constants of 00_scope.md R9, the port events of R18 and 20_memory.md
R71, and the values the spec leaves open, as opaque constants of which only the stated contract is known. -/

namespace Sys2Proof

/-! ## Constants (R9, R44) -/

/-- 1.0 in Q24. -/
abbrev ONE : Nat := 16777216
/-- The LFO's ceiling, 1.0 in Q16, the source's `threshold_max` (R154). -/
abbrev LFO_CEIL : Nat := 65536
/-- The threshold INIT writes, 0.5 in Q16 (R33). -/
abbrev TH_INIT : Nat := 32768
/-- The limiter's knee on the feedback tap, 0.1 in Q24 (R187). -/
abbrev K_FB : Nat := 1677722
/-- The limiter's ceiling on the feedback tap, 1.2 in Q24 (R187). -/
abbrev C_FB : Nat := 20132659
/-- The limiter's knee on the wet signal, 0.05 in Q24 (R187). -/
abbrev K_WET : Nat := 838861
/-- The limiter's ceiling on the wet signal, 1.0 in Q24 (R187). -/
abbrev C_WET : Nat := 16777216
/-- The feedback gain, 0.890230 in Q24 (R213). -/
abbrev FB_GAIN : Nat := 14935581
/-- The wet share of the mix, 0.5 in Q24 (R215). -/
abbrev MIX : Nat := 8388608
/-- The dry share of the mix, 0.5 in Q24 (R215). -/
abbrev DRY : Nat := 8388608
/-- The gain ramp's step, 0.0625 as a shift (R201). -/
abbrev G_STEP_SHIFT : Nat := 4
/-- The gain ramp's snap point, 0.99998 in Q24 (R202). -/
abbrev G_SNAP : Nat := 16776880
/-- One full range of the phase accumulator, `TIMER_MAX` (R151). -/
abbrev TIMER_MAX : Nat := 1073741824
/-- One table step, `2^IDX_SHIFT` phase units (R152, R158). -/
abbrev TABLE_STEP : Nat := 4194304
/-- The largest timer increment a rate function may give, `2^30 - 2^22` (R134). -/
abbrev INC_MAX : Nat := 1069547520

/-! ## Port events (R18, R71) -/

/-- One port event of the core. A run shows the ordered list of these (R18). -/
inductive Event where
  /-- `DL.Init()` on `DL_CTL`. -/
  | dlInit
  /-- `DL.Reset()` on `DL_CTL`. -/
  | dlReset
  /-- `DL.Output()`, with the s32 Q24 answer received on `DL_RD`. -/
  | dlOutput (answer : Word)
  /-- `DL.Update(offset)` on `DL_UPD`, s32 Q8. -/
  | dlUpdate (offset : Word)
  /-- `DL.Input(sample)` on `DL_WR`, s32 Q24. -/
  | dlInput (sample : Word)
  /-- One write of the four output channels, s32 Q24 (R216, log 14). -/
  | out (mainL mainR subL subR : Word)
  /-- A result word on `RES_OUT` (R244). -/
  | res (result : Word)
deriving DecidableEq, Repr

/-! ## Configuration functions (R134, R135, R182) -/

/-- The three functions the spec calls configuration functions (D18 to D20): each is fixed per block. -/
structure Config where
  /-- `RATE_INC_FN`, from `P_TIME` to a timer increment (R134). -/
  rateInc : Word → Word
  /-- `DEPTH_SCALE_FN`, from `P_DEPTH` to a Q24 depth scale (R135). -/
  depthScale : Word → Word
  /-- `SOFTCLIP_FN`, from a knee and an excess to a Q24 integer (R182). -/
  softclip : Nat → Nat → Nat

/-- What R134, R135 and R182 ask of every instance, on the arguments those rules name: `P_TIME` and `P_DEPTH` from 0 to
2^31 - 1, a knee below `ONE`, an excess up to 2^31. That each depends on its arguments alone is its being a function (log 7). -/
structure Config.Contract (c : Config) : Prop where
  rateInc_range : ∀ τ : Word, τ.toNat < 2147483648 → 1 ≤ (c.rateInc τ).toNat ∧ (c.rateInc τ).toNat ≤ INC_MAX
  rateInc_anti : ∀ τ₁ τ₂ : Word, τ₁.toNat ≤ τ₂.toNat → τ₂.toNat < 2147483648 →
    (c.rateInc τ₂).toNat ≤ (c.rateInc τ₁).toNat
  depthScale_range : ∀ δ : Word, δ.toNat < 2147483648 → 1 ≤ (c.depthScale δ).toNat ∧ (c.depthScale δ).toNat ≤ ONE
  depthScale_mono : ∀ δ₁ δ₂ : Word, δ₁.toNat ≤ δ₂.toNat → δ₂.toNat < 2147483648 →
    (c.depthScale δ₁).toNat ≤ (c.depthScale δ₂).toNat
  softclip_range : ∀ k u : Nat, k < ONE → u ≤ 2147483648 → c.softclip k u ≤ ONE - k
  softclip_zero : ∀ k : Nat, k < ONE → c.softclip k 0 = 0
  softclip_mono : ∀ k u₁ u₂ : Nat, k < ONE → u₁ ≤ u₂ → u₂ ≤ 2147483648 → c.softclip k u₁ ≤ c.softclip k u₂

/-- FREE VALUE (log 6). Some configuration that meets the contract: it has no body, so nothing but the contract is known
of it, and a statement about it holds for every instance the spec admits. -/
opaque Config.anyInstance [Inhabited { c : Config // c.Contract }] : { c : Config // c.Contract }

/-- Evidence that instances exist, which the declaration above asks for; it gives `anyInstance` no value. -/
@[reducible] def Config.someInstance : Inhabited { c : Config // c.Contract } :=
  ⟨⟨⟨fun _ => 1, fun _ => 1, fun _ _ => 0⟩, by constructor <;> simp⟩⟩

/-- The configuration of the block that the model describes (R9, rows marked configuration). -/
def Config.hw : Config := (@Config.anyInstance Config.someInstance).val

/-- All that is known of `Config.hw`. -/
theorem Config.hw_contract : Config.hw.Contract := (@Config.anyInstance Config.someInstance).property

/-- FREE VALUE (log 4). The delay line's answer to a `DL.Output()` for which `State` lists none: any s32 word, for each
history of port events (R74, I2). -/
opaque Config.dlAnswer : List Event → Word

/-! ## Reference instances (R136, R183), used by no meaning -/

/-- The sample rate of the vectors in 95_test_vectors.md (R9 `FS`, GK1, log 18): one value of the argument `fs` below. -/
abbrev FS : Nat := 48000

/-- Whether the increment `n` is at most `2^30 * 2^E(τ) / fs` with `E(τ) = -4.2 + (1 - τ/2^31) * 8.2`, for the sample rate
`fs`, which R9 marks as configuration. Both sides of `n * fs ≤ 2^(30 + E(τ))` are raised to the power `5 * 2^31`, which makes
the exponent the integer `170 * 2^31 - 41 * τ` (log 12). -/
abbrev Config.rateIncAtMost (fs τ n : Nat) : Prop := (n * fs) ^ (5 * 2147483648) ≤ 2 ^ (170 * 2147483648 - 41 * τ)

/-- `RATE_INC_REF` at a sample rate (R136): the floor is the greatest integer that passes, and the search bound is the clamp
from above. -/
def Config.rateIncRef (fs τ : Nat) : Nat := max (Nat.findGreatest (Config.rateIncAtMost fs τ) INC_MAX) 1

/-- Whether `n` is at most `2^(13 + 5 * δ/2^31)` rounded to nearest, that is `n - 1/2 ≤ 2^(13 + 5 * δ/2^31)` (never a tie,
R136), doubled and raised to the power `2^31` (log 12). -/
abbrev Config.depthScaleAtMost (δ n : Nat) : Prop := (2 * n - 1) ^ 2147483648 ≤ 2 ^ (14 * 2147483648 + 5 * δ)

/-- `DEPTH_SCALE_REF` (R136). -/
def Config.depthScaleRef (δ : Nat) : Nat := max (Nat.findGreatest (Config.depthScaleAtMost δ) ONE) 1

/-- `SOFTCLIP_REF` (R183): `(u * M) // (u + M)` with `M = ONE - k`. -/
def Config.softclipRef (k u : Nat) : Nat := u * (ONE - k) / (u + (ONE - k))

/-- The reference configuration at a sample rate (R136, R183); the vectors of 95_test_vectors.md take it at `FS`. -/
def Config.reference (fs : Nat) : Config where
  rateInc τ := BitVec.ofNat 32 (Config.rateIncRef fs τ.toNat)
  depthScale δ := BitVec.ofNat 32 (Config.depthScaleRef δ.toNat)
  softclip := Config.softclipRef

end Sys2Proof
end

