-- ==== Sys2Proof/Machine/State.lean ====
section
/-! DEFINITION. The state of the block (10_state.md R30, R50), the record of 60_exceptions.md R264 and what stands at the
ports (20_memory.md R71, 00_scope.md R18), as plain data; the reasons a step can stop; the state at power-on. -/

namespace Sys2Proof.Machine

/-- The twelve registers, by the names of R30. -/
inductive Reg where
  | lfoT | lfoDt | lfoDir | lfoTh | lfoOut | lfoOut2 | lfoCenter
  | pTime | pDepth | pTimerInc | pDepthScale
  | gInputGain
deriving DecidableEq, Repr

end Sys2Proof.Machine

namespace Sys2Proof

/-- FREE VALUE (log 1). The unspecified word a register holds at power-on (R290): it has no body, so no proof knows it. -/
opaque Config.powerOn : Machine.Reg → Word

end Sys2Proof

namespace Sys2Proof.Machine

/-- One thing for each register of R30: its word, or its validity. -/
structure RegFile (α : Type) where
  /-- `LFO_T`, the phase accumulator (R31). -/
  lfoT : α
  /-- `LFO_DT`, the phase increment per sample (R32). -/
  lfoDt : α
  /-- `LFO_DIR`, the direction flag: 0 Rising, 1 Falling (R35). -/
  lfoDir : α
  /-- `LFO_TH`, the threshold, Q16 (R33). -/
  lfoTh : α
  /-- `LFO_OUT`, the monotone level, Q16 (R34). -/
  lfoOut : α
  /-- `LFO_OUT2`, the folded level, Q16 (R36). -/
  lfoOut2 : α
  /-- `LFO_CENTER` (R37). -/
  lfoCenter : α
  /-- `P_TIME`, Q31 (R38). -/
  pTime : α
  /-- `P_DEPTH`, Q31 (R39). -/
  pDepth : α
  /-- `P_TIMER_INC` (R40). -/
  pTimerInc : α
  /-- `P_DEPTH_SCALE`, Q24 (R41). -/
  pDepthScale : α
  /-- `G_INPUT_GAIN`, Q24 (R42). -/
  gInputGain : α
deriving DecidableEq, Repr

/-- The state of the block and of its ports between two commands. -/
structure State where
  /-- The register words (R30). -/
  regs : RegFile Word
  /-- Which registers some command has written since power-on (R50). -/
  valid : RegFile Bool
  /-- The `UNINIT` record: the first unwritten register a command has read, kept for good (R264, log 2). -/
  uninit : Option Reg
  /-- `CMD_IN`: words the host has sent and no command has taken, the next one first (R71, log 3). -/
  cmdIn : List Word
  /-- `DL_RD`: answers the delay line has ready, the next one first (R71, R74, log 4). -/
  dlRd : List Word
  /-- The port events so far, the oldest first (R18, log 5). -/
  events : List Event
deriving DecidableEq, Repr

/-- Why a run has no end state. No meaning of a command raises a fault (R260). -/
inductive Fault where
  /-- A run that recorded `UNINIT(reg)` is faulted and has no end state (R264, R301). Raised by `endOfRun` only, which
  `runCommand` asks after each command and `runCommands` at the end; safe: the run has no meaning in a claim where the hardware
  gives it some value. -/
  | uninit (reg : Reg)
deriving DecidableEq, Repr

/-- Why a command has no meaning in the model. -/
inductive Refusal where
  /-- The command has no meaning yet. Raised by no arm of `exec`: every row of the table is modelled; safe. -/
  | notModelled (mnemonic : String)
deriving DecidableEq, Repr

/-- Power-on (R290): every register unwritten and holding its unspecified word, a free value (log 1); nothing recorded; no
port event; nothing sent by the host and nothing answered by the delay line yet. -/
def State.reset : State where
  regs :=
    { lfoT := Config.powerOn .lfoT, lfoDt := Config.powerOn .lfoDt, lfoDir := Config.powerOn .lfoDir
      lfoTh := Config.powerOn .lfoTh, lfoOut := Config.powerOn .lfoOut, lfoOut2 := Config.powerOn .lfoOut2
      lfoCenter := Config.powerOn .lfoCenter
      pTime := Config.powerOn .pTime, pDepth := Config.powerOn .pDepth, pTimerInc := Config.powerOn .pTimerInc
      pDepthScale := Config.powerOn .pDepthScale
      gInputGain := Config.powerOn .gInputGain }
  valid :=
    { lfoT := false, lfoDt := false, lfoDir := false, lfoTh := false, lfoOut := false, lfoOut2 := false, lfoCenter := false
      pTime := false, pDepth := false, pTimerInc := false, pDepthScale := false
      gInputGain := false }
  uninit := none
  cmdIn := []
  dlRd := []
  events := []

end Sys2Proof.Machine
end

