-- ==== Sys2Proof/Machine/Ops.lean ====
section
/-! DEFINITION. The named operations over the registers and the ports (00_scope.md R14), the record of reads of unwritten
registers (60_exceptions.md R264), taking a command's words from `CMD_IN` (30_encoding.md R104) and the end of a run
(70_reset_and_hazards.md R301). The block has no exception to take and none to return from (60_exceptions.md R260, R263), so
no operation here enters or leaves a handler; it has no memory (20_memory.md R70), so none reads or writes one. -/

namespace Sys2Proof.Machine

/-! ## Registers -/

/-- The entry of a register. -/
def RegFile.get {α : Type} (f : RegFile α) : Reg → α
  | .lfoT => f.lfoT
  | .lfoDt => f.lfoDt
  | .lfoDir => f.lfoDir
  | .lfoTh => f.lfoTh
  | .lfoOut => f.lfoOut
  | .lfoOut2 => f.lfoOut2
  | .lfoCenter => f.lfoCenter
  | .pTime => f.pTime
  | .pDepth => f.pDepth
  | .pTimerInc => f.pTimerInc
  | .pDepthScale => f.pDepthScale
  | .gInputGain => f.gInputGain

/-- The file with one entry replaced. -/
def RegFile.set {α : Type} (f : RegFile α) (r : Reg) (a : α) : RegFile α :=
  match r with
  | .lfoT => { f with lfoT := a }
  | .lfoDt => { f with lfoDt := a }
  | .lfoDir => { f with lfoDir := a }
  | .lfoTh => { f with lfoTh := a }
  | .lfoOut => { f with lfoOut := a }
  | .lfoOut2 => { f with lfoOut2 := a }
  | .lfoCenter => { f with lfoCenter := a }
  | .pTime => { f with pTime := a }
  | .pDepth => { f with pDepth := a }
  | .pTimerInc => { f with pTimerInc := a }
  | .pDepthScale => { f with pDepthScale := a }
  | .gInputGain => { f with gInputGain := a }

/-- The word a register holds. -/
def State.get (s : State) (r : Reg) : Word := s.regs.get r

/-- `R[r]` as the integer it is in every rule: each register is `u32` (R30). -/
def State.read (s : State) (r : Reg) : Int := ((s.get r).toNat : Int)

/-- Whether some command has written the register since power-on (R50). -/
def State.written (s : State) (r : Reg) : Bool := s.valid.get r

/-- `R[r] <- v`, which also makes `r` valid (R14, R50). -/
def State.put (s : State) (r : Reg) (v : Int) : State :=
  { s with regs := s.regs.set r (wordOf v), valid := s.valid.set r true }

/-- The record of R264: `reads` are the registers a command's pseudocode reads before it writes them, in its order. The first
unwritten one is recorded unless a record stands already; the command then runs with the values held (log 2). -/
def State.noteReads (s : State) (reads : List Reg) : State :=
  { s with uninit := s.uninit.or (reads.find? fun r => !s.written r) }

/-! ## Ports -/

/-- A port event happens (R18). -/
def State.emit (s : State) (e : Event) : State := { s with events := s.events ++ [e] }

/-- The delay line's answer to a `DL.Output()` made in this state: the next one it has ready, else a free value (R74, I2, log 4); an answer
always comes (R266, log 16). -/
def State.dlAnswer (s : State) : Word :=
  match s.dlRd with
  | a :: _ => a
  | [] => Config.dlAnswer s.events

/-- `DL.Output()`: the read transaction, which takes the answer `State.dlAnswer` (R14, R211). -/
def State.dlOutput (s : State) : State :=
  State.emit { s with dlRd := s.dlRd.tail } (.dlOutput s.dlAnswer)

/-- `DL.Update(v)` (R14, R212). -/
def State.dlUpdate (s : State) (v : Int) : State := s.emit (.dlUpdate (wordOf v))

/-- `DL.Input(v)` (R14, R214). -/
def State.dlInput (s : State) (v : Int) : State := s.emit (.dlInput (wordOf v))

/-- `DL.Init()` (R14, R241). -/
def State.dlInit (s : State) : State := s.emit .dlInit

/-- `DL.Reset()` (R14, R241, R242). -/
def State.dlReset (s : State) : State := s.emit .dlReset

/-- `OUT(v)`: the same word on all four output channels at once (R216). -/
def State.outAll (s : State) (v : Int) : State := s.emit (.out (wordOf v) (wordOf v) (wordOf v) (wordOf v))

/-- `result <- w` on `RES_OUT` (R14). -/
def State.result (s : State) (w : Word) : State := s.emit (.res w)

/-! ## The command stream -/

/-- The next whole command on `CMD_IN` and the state without its words; nothing while none has arrived (R72, R104). -/
def fetch (s : State) : Option (Instr × State) :=
  match decode s.cmdIn with
  | .ok (i, rest) => some (i, { s with cmdIn := rest })
  | .error _ => none

/-! ## The end of a run -/

/-- A run ends in the state its last command leaves, unless it recorded `UNINIT`: then it is faulted and has no end
state (R264, R301). -/
def endOfRun (s : State) : Host.Outcome State Fault Refusal :=
  match s.uninit with
  | none => .next s
  | some r => .fault (.uninit r)

end Sys2Proof.Machine
end

