-- ==== Sys2Proof/Machine/Operands.lean ====
section
/-! DEFINITION. Every operand form of the command stream (30_encoding.md R105, R109, R110). -/

namespace Sys2Proof.Machine

/-- An operand word as `s32`: Q31 for PARAM, Q24 for SAMPLE. It is used whole (R105). -/
def s32 (w : Word) : Int := w.toInt

/-- `clip(v, 0, 1)` on a Q31 operand: 1.0 is beyond every operand, so only the lower clamp acts (R131, R132). -/
def clipQ31 (v : Word) : Int := max (s32 v) 0

/-- The select of a register (R30). -/
def Reg.sel : Reg → BitVec 8
  | .lfoT => 0x00#8
  | .lfoDt => 0x01#8
  | .lfoDir => 0x02#8
  | .lfoTh => 0x03#8
  | .lfoOut => 0x04#8
  | .lfoOut2 => 0x05#8
  | .lfoCenter => 0x06#8
  | .pTime => 0x10#8
  | .pDepth => 0x11#8
  | .pTimerInc => 0x12#8
  | .pDepthScale => 0x13#8
  | .gInputGain => 0x20#8

/-- The twelve registers, in the order of R30. -/
def Reg.all : List Reg :=
  [.lfoT, .lfoDt, .lfoDir, .lfoTh, .lfoOut, .lfoOut2, .lfoCenter, .pTime, .pDepth, .pTimerInc, .pDepthScale, .gInputGain]

/-- The register a select names; the other selects are reserved and name none (R30, R110). -/
def Reg.ofSel (sel : BitVec 8) : Option Reg := Reg.all.find? fun r => r.sel == sel

end Sys2Proof.Machine
end

