-- ==== Sys2Proof/Machine/Lifecycle.lean ====
section
/-! DEFINITION. INIT, RESUME, NOP, RDREG (46_lifecycle.md) and the reserved opcodes (30_encoding.md R107). -/

namespace Sys2Proof.Machine

/-- NOP (R243). -/
def execNop (s : State) : Host.Outcome State Fault Refusal := .next s

/-- INIT's register writes, in the order of its pseudocode (R241). -/
def initRegisters (s : State) : State :=
  (((((((((((s.put .pTime 0x20000000).put .pDepth 0x40000000).put .gInputGain 0).put .lfoDt 0x40000000).put .pTimerInc
    0x40000000).put .lfoTh 32768).put .lfoOut 0).put .lfoOut2 0).put .lfoT 0).put .lfoDir 0).put .lfoCenter
    0x4000).put .pDepthScale 0

/-- INIT (R241). -/
def execInit (s : State) : Host.Outcome State Fault Refusal := .next (initRegisters s.dlInit.dlReset)

/-- RESUME (R242). -/
def execResume (s : State) : Host.Outcome State Fault Refusal := .next (s.dlReset.put .gInputGain 0)

/-- RDREG (R244): a named register's word, or 0 for a reserved select. -/
def execRdReg (sel : BitVec 8) (s : State) : Host.Outcome State Fault Refusal :=
  match Reg.ofSel sel with
  | some r => .next ((s.noteReads [r]).result (s.get r))
  | none => .next (s.result 0#32)

/-- A reserved opcode: no effect (R107). -/
def execReserved (_opc : BitVec 8) (s : State) : Host.Outcome State Fault Refusal := .next s

end Sys2Proof.Machine
end

