-- ==== Sys2Proof/Machine/Parameter.lean ====
section
/-! DEFINITION. The parameter store: SETTIME, SETDEPTH, PARAM_IGNORED and BLOCK (41_parameter.md). -/

namespace Sys2Proof.Machine

/-- SETTIME (R131). -/
def execSetTime (v : Word) (s : State) : Host.Outcome State Fault Refusal := .next (s.put .pTime (clipQ31 v))

/-- SETDEPTH (R132). -/
def execSetDepth (v : Word) (s : State) : Host.Outcome State Fault Refusal := .next (s.put .pDepth (clipQ31 v))

/-- PARAM with an unrecognised index: the operand has been consumed, nothing else happens (R133). -/
def execParamIgnored (_sel : BitVec 8) (_v : Word) (s : State) : Host.Outcome State Fault Refusal := .next s

/-- BLOCK's writes under a configuration (R138). -/
def deriveBlock (cfg : Config) (s : State) : State :=
  let inc : Int := ((cfg.rateInc (s.get .pTime)).toNat : Int)
  let scale : Int := ((cfg.depthScale (s.get .pDepth)).toNat : Int)
  ((s.put .pTimerInc inc).put .lfoDt inc).put .pDepthScale scale

/-- The registers BLOCK reads, in the order of its pseudocode (R138, R264). -/
def blockReads : List Reg := [.pTime, .pDepth]

/-- BLOCK (R138). -/
def execBlock (s : State) : Host.Outcome State Fault Refusal := .next (deriveBlock Config.hw (s.noteReads blockReads))

end Sys2Proof.Machine
end

