-- ==== Sys2Proof/Machine/GainRamp.lean ====
section
/-! DEFINITION. `GAIN_STEP`, step h of SAMPLE (44_gainramp.md R200 to R202). -/

namespace Sys2Proof.Machine

/-- The gain after one update of `g` (R200). -/
def gainNext (g : Int) : Int := if g < (G_SNAP : Int) then g + asr ((ONE : Int) - g) G_STEP_SHIFT else (ONE : Int)

/-- `GAIN_STEP` (R200). -/
def gainStep (s : State) : State := s.put .gInputGain (gainNext (s.read .gInputGain))

end Sys2Proof.Machine
end

