-- ==== Sys2Proof/Machine/Flags.lean ====
section
/-! DEFINITION. Every computation with the block's only flag, `LFO_DIR` (10_state.md R35, 42_lfo.md R155, R156). -/

namespace Sys2Proof.Machine

/-- `LFO_DIR` of a rising leg (R35). -/
abbrev RISING : Int := 0

/-- `LFO_DIR` of a falling leg (R35). -/
abbrev FALLING : Int := 1

/-- Whether a new level reaches or passes the threshold (R155). -/
def crosses (level th : Int) : Bool := decide (th ≤ level)

/-- The flag after a crossing: inverted (R155). -/
def flip (dir : Int) : Int := 1 - dir

/-- The folded output for a direction, threshold and level (R156). -/
def fold (dir th level : Int) : Int := if dir = FALLING then th - level else level

end Sys2Proof.Machine
end

