-- ==== Sys2Proof/Machine/Lfo.lean ====
section
/-! DEFINITION. `LFO_STEP`, step b of SAMPLE (42_lfo.md R150 to R158). -/

namespace Sys2Proof.Machine

/-- The advanced phase: `(LFO_T + LFO_DT) mod 2^30` (R151). -/
def phase (s : State) : Nat := ((s.get .lfoT).toNat + (s.get .lfoDt).toNat) % TIMER_MAX

/-- The table index of that phase, `t[29:22]` (R152). -/
def tableIndex (s : State) : Nat := phase s / TABLE_STEP

/-- The level after `idx` table steps of exponential approach to the ceiling (R154). -/
def approach (level : Int) (idx : Nat) : Int := (LFO_CEIL : Int) - mulq ((LFO_CEIL : Int) - level) (lfoTable idx : Int) 16

/-- The level this step reaches before the threshold test (R154). -/
def newLevel (s : State) : Int := approach (s.read .lfoOut) (tableIndex s)

/-- The level update and the threshold crossing (R154, R155). -/
def levelUpdate (s : State) : State :=
  if crosses (newLevel s) (s.read .lfoTh) then
    (s.put .lfoDir (flip (s.read .lfoDir))).put .lfoOut (newLevel s - s.read .lfoTh)
  else s.put .lfoOut (newLevel s)

/-- The phase a step keeps: all of it when the index is zero, else the sub-step phase only (R153, R158). -/
def keptPhase (s : State) : Nat := if tableIndex s = 0 then phase s else phase s % TABLE_STEP

/-- The fold of the level and direction a state holds (R156). -/
def folded (s : State) : Int := fold (s.read .lfoDir) (s.read .lfoTh) (s.read .lfoOut)

/-- Level, direction and phase: all of a step but the fold (R151 to R155, R158). -/
def lfoAdvance (s : State) : State :=
  (if tableIndex s = 0 then s else levelUpdate s).put .lfoT (keptPhase s : Int)

/-- `LFO_STEP` (R150). -/
def lfoStep (s : State) : State := (lfoAdvance s).put .lfoOut2 (folded (lfoAdvance s))

/-- The registers `LFO_STEP` reads before it writes them, in the order of its pseudocode and left to right in a line
(R150, R264, log 9). -/
def lfoReads (s : State) : List Reg :=
  if tableIndex s = 0 then
    if s.read .lfoDir = FALLING then [.lfoT, .lfoDt, .lfoDir, .lfoTh, .lfoOut] else [.lfoT, .lfoDt, .lfoDir, .lfoOut]
  else [.lfoT, .lfoDt, .lfoOut, .lfoTh, .lfoDir]

end Sys2Proof.Machine
end

