-- ==== Sys2Proof/Machine/Limiter.lean ====
section
/-! DEFINITION. The soft limiter and its two instances (43_limiter.md R180, R187). The configuration is an argument; the
hardware's is `Config.hw`. -/

namespace Sys2Proof.Machine

/-- The limiter's threshold `c - ONE + k`, Q24 (R180). -/
def limThreshold (k c : Nat) : Int := (c : Int) - (ONE : Int) + (k : Int)

/-- `SOFT_LIMIT(k, x, c)` (R180). -/
def softLimit (cfg : Config) (k : Nat) (x : Int) (c : Nat) : Int :=
  let thr := limThreshold k c
  let a : Int := (x.natAbs : Int)
  if a < thr then x
  else
    let m := thr + (cfg.softclip k (a - thr).toNat : Int)
    if x < 0 then -m else m

/-- `LIM_FB`, on the feedback tap (R187). -/
def limFb (cfg : Config) (x : Int) : Int := softLimit cfg K_FB x C_FB

/-- `LIM_WET`, on the wet signal (R187). -/
def limWet (cfg : Config) (x : Int) : Int := softLimit cfg K_WET x C_WET

end Sys2Proof.Machine
end

