-- ==== Sys2Proof/Machine/Process.lean ====
section
/-! DEFINITION. SAMPLE, one frame of the per-sample pipeline (45_process.md R210 to R216). -/

namespace Sys2Proof.Machine

/-- Step c: the delay-update offset, Q8, from the fold the LFO step has just written (R212). -/
def offset (s : State) : Int := mulq (asr (s.read .lfoTh) 1 - s.read .lfoOut2) (s.read .pDepthScale) 24

/-- Step d: the feedback of an answer (R213). -/
def feedback (cfg : Config) (wet : Int) : Int := mulq (limFb cfg wet) (FB_GAIN : Int) 24

/-- Step e: the delay-line input of a sample, the gain before this frame's ramp update, and an answer (R214). -/
def delayInput (cfg : Config) (x g wet : Int) : Int := sat32 (mulq x g 24 + feedback cfg wet)

/-- Step f: the output of a sample and an answer (R215). -/
def outputSample (cfg : Config) (x wet : Int) : Int :=
  sat32 (mulq x (DRY : Int) 24 + mulq (limWet cfg wet) (MIX : Int) 24)

/-- The registers SAMPLE reads before it writes them, in the order of its pseudocode (R210, R264); `LFO_OUT2` is not among
them, since the LFO step writes it first. -/
def sampleReads (s : State) : List Reg := lfoReads s ++ [.lfoTh, .pDepthScale, .gInputGain]

/-- Steps a to h under a configuration (R210). -/
def sampleFrame (cfg : Config) (x : Int) (s : State) : State :=
  let wet := s32 s.dlAnswer
  let s := s.dlOutput
  let s := lfoStep s
  let s := s.dlUpdate (offset s)
  let s := s.dlInput (delayInput cfg x (s.read .gInputGain) wet)
  let s := s.outAll (outputSample cfg x wet)
  gainStep s

/-- SAMPLE (R210). -/
def execSample (x : Word) (s : State) : Host.Outcome State Fault Refusal :=
  .next (sampleFrame Config.hw (s32 x) (s.noteReads (sampleReads s)))

end Sys2Proof.Machine
end

