-- ==== Sys2Proof/Machine/Dispatch.lean ====
section
/-! DEFINITION. One arm per command, each a direct call of its meaning. -/

namespace Sys2Proof.Machine

def exec (i : Instr) (s : State) : Host.Outcome State Fault Refusal :=
  match i with
  | .nop => Sys2Proof.Machine.execNop s
  | .init => Sys2Proof.Machine.execInit s
  | .resume => Sys2Proof.Machine.execResume s
  | .setTime v => Sys2Proof.Machine.execSetTime v s
  | .setDepth v => Sys2Proof.Machine.execSetDepth v s
  | .paramIgnored sel v => Sys2Proof.Machine.execParamIgnored sel v s
  | .block => Sys2Proof.Machine.execBlock s
  | .sample x => Sys2Proof.Machine.execSample x s
  | .rdReg sel => Sys2Proof.Machine.execRdReg sel s
  | .reserved opc => Sys2Proof.Machine.execReserved opc s

end Sys2Proof.Machine
end

