-- ==== Sys2Proof/Machine/Step.lean ====
section
/-! DEFINITION. One step: the next command on `CMD_IN` (20_memory.md R72). -/

namespace Sys2Proof.Machine

/-- One step: take the next whole command from `CMD_IN` and execute it. While no whole command has arrived the block is idle
and keeps everything (R273, log 3). -/
def step (s : State) : Host.Outcome State Fault Refusal :=
  match fetch s with
  | some (i, t) => exec i t
  | none => .next s

/-- The host sends the command whose bits are `w` (numbered as the opcode table numbers them, zero above `nbits`), so that
it is the next one the block takes (log 10). -/
def State.withFetchWord (s : State) (nbits w : Nat) : State := { s with cmdIn := tableWords nbits w ++ s.cmdIn }

end Sys2Proof.Machine
end

