-- ==== Sys2Proof/Machine/HostSide.lean ====
section
/-! DEFINITION. What stands on the host's side of the ports: PROCESS (45_process.md R219), the stereo adapter (R220), the
assembler's words and refusals (30_encoding.md R113, R114), a run and its observation (70_reset_and_hazards.md R301,
00_scope.md R18). No meaning of a command calls anything here. -/

namespace Sys2Proof.Machine

/-! ## PROCESS and the stereo adapter -/

/-- `PROCESS n: x_0, ..., x_(n-1)` as the command sequence it expands to (R219). -/
def processCommands (xs : List Word) : List Instr := .block :: xs.map .sample

/-- One interleaved stereo frame of the host's buffers, already in s32 Q24. -/
structure StereoFrame where
  left : Word
  right : Word
deriving DecidableEq, Repr

/-- The commands of `Process` on a main input: the left sample of each frame feeds the block; the right one and the sub
input are not used (R220). -/
def adapterCommands (mainIn : List StereoFrame) : List Instr := processCommands (mainIn.map StereoFrame.left)

/-- `mainOut`: one frame per `OUT` (R216, R220). -/
def mainOut (events : List Event) : List StereoFrame :=
  events.filterMap fun
    | .out l r _ _ => some ⟨l, r⟩
    | _ => none

/-- `subOut`: one frame per `OUT` (R216, R220). -/
def subOut (events : List Event) : List StereoFrame :=
  events.filterMap fun
    | .out _ _ l r => some ⟨l, r⟩
    | _ => none

/-! ## Runs -/

/-- One command of a run: its next state, or no meaning but the fault `UNINIT` where it reads an unwritten register, or where
a command before it has (R264). -/
def runCommand (i : Instr) (s : State) : Host.Outcome State Fault Refusal :=
  match exec i s with
  | .next t => endOfRun t
  | .fault f => .fault f
  | .refused r => .refused r

/-- A run: a list of commands executed in order, then its end (R301). -/
def runCommands : List Instr → State → Host.Outcome State Fault Refusal
  | [], s => endOfRun s
  | i :: rest, s =>
    match runCommand i s with
    | .next t => runCommands rest t
    | .fault f => .fault f
    | .refused r => .refused r

/-- What a run shows: its port events and the register values after its last command (R18). -/
structure Observation where
  events : List Event
  regs : RegFile Word
deriving DecidableEq, Repr

/-- The observation of a state. -/
def State.observation (s : State) : Observation := ⟨s.events, s.regs⟩

/-! ## Assembler (R113, R114) -/

/-- A number as written: `0x…` gives a bit pattern, decimal a signed integer (R113). -/
inductive AsmNumber where
  | hex (pattern : Nat)
  | dec (value : Int)
deriving DecidableEq, Repr

/-- The operand of RDREG as written: a select or a register name (R113). -/
inductive AsmSelect where
  | number (n : AsmNumber)
  | name (r : Reg)
deriving DecidableEq, Repr

/-- One line of assembly, after its text has been split (log 13). -/
inductive AsmLine where
  | nop
  | init
  | resume
  | setTime (v : AsmNumber)
  | setDepth (v : AsmNumber)
  | param (i v : AsmNumber)
  | block
  | sample (x : AsmNumber)
  | rdReg (r : AsmSelect)
  | process (xs : List AsmNumber)
deriving DecidableEq, Repr

/-- Why the assembler rejects a line (R113, I22). -/
inductive AsmReject where
  /-- An operand outside the s32 range. -/
  | operandRange
  /-- A PARAM index or RDREG select outside 0 to 255. -/
  | selectorRange
deriving DecidableEq, Repr

/-- The operand word of a number (R113). -/
def AsmNumber.word : AsmNumber → Except AsmReject Word
  | .hex n => if n < 4294967296 then .ok (BitVec.ofNat 32 n) else .error .operandRange
  | .dec v => if -2147483648 ≤ v ∧ v < 2147483648 then .ok (BitVec.ofInt 32 v) else .error .operandRange

/-- The selector a number gives (R113). -/
def AsmNumber.selector : AsmNumber → Except AsmReject (BitVec 8)
  | .hex n => if n < 256 then .ok (BitVec.ofNat 8 n) else .error .selectorRange
  | .dec v => if 0 ≤ v ∧ v < 256 then .ok (BitVec.ofInt 8 v) else .error .selectorRange

/-- The operand words of a list of numbers; the first number out of range is the reason to reject. -/
def AsmNumber.words : List AsmNumber → Except AsmReject (List Word)
  | [] => .ok []
  | n :: rest =>
    match n.word, AsmNumber.words rest with
    | .ok w, .ok ws => .ok (w :: ws)
    | .error e, _ => .error e
    | _, .error e => .error e

/-- `PARAM i, v` (R113): SETTIME and SETDEPTH are its spellings with index 0 and 1 (R114). -/
def paramCommand (sel : BitVec 8) (v : Word) : Instr := decodeParam sel v

/-- The commands a line stands for (R113, R114). -/
def AsmLine.commands : AsmLine → Except AsmReject (List Instr)
  | .nop => .ok [.nop]
  | .init => .ok [.init]
  | .resume => .ok [.resume]
  | .setTime v => v.word.map fun w => [.setTime w]
  | .setDepth v => v.word.map fun w => [.setDepth w]
  | .param i v =>
    match i.selector, v.word with
    | .ok sel, .ok w => .ok [paramCommand sel w]
    | .error e, _ => .error e
    | _, .error e => .error e
  | .block => .ok [.block]
  | .sample x => x.word.map fun w => [.sample w]
  | .rdReg (.number n) => n.selector.map fun sel => [.rdReg sel]
  | .rdReg (.name r) => .ok [.rdReg r.sel]
  | .process xs => (AsmNumber.words xs).map processCommands

/-- The words a line assembles to. -/
def assemble (line : AsmLine) : Except AsmReject (List Word) := line.commands.map fun is => is.flatMap encode

end Sys2Proof.Machine
end

