-- ==== Sys2Proof/Safety.lean ====
section
/-! DEFINITION. The terms in which claims are stated: the ranges of 10_state.md R30 and the invariants over them, what a
command leaves alone, which command writes which register (R30, R49), and the gain sequence of 44_gainramp.md R205. -/

namespace Sys2Proof.Machine

/-! ## Ranges and invariants -/

/-- The range column of R30. -/
def Reg.inRange (r : Reg) (w : Word) : Bool :=
  match r with
  | .lfoT => decide (w.toNat < TABLE_STEP)
  | .lfoDt => decide (1 ≤ w.toNat ∧ w.toNat ≤ INC_MAX ∨ w.toNat = TIMER_MAX)
  | .lfoDir => decide (w.toNat ≤ 1)
  | .lfoTh => decide (w.toNat = TH_INIT)
  | .lfoOut => decide (w.toNat ≤ 32767)
  | .lfoOut2 => decide (w.toNat ≤ 32768)
  | .lfoCenter => decide (w.toNat = 16384)
  | .pTime => decide (w.toNat < 2147483648)
  | .pDepth => decide (w.toNat < 2147483648)
  | .pTimerInc => decide (1 ≤ w.toNat ∧ w.toNat ≤ INC_MAX ∨ w.toNat = TIMER_MAX)
  | .pDepthScale => decide (w.toNat ≤ ONE)
  | .gInputGain => decide (w.toNat ≤ ONE)

/-- Every register is in its range, as every command after INIT keeps it (R30). -/
def State.AllInRange (s : State) : Prop := ∀ r : Reg, r.inRange (s.get r) = true

/-- As long as no unwritten register has been read, every written register is in its range: what the ranges of R30 say of a
run that begins at power-on. -/
def State.WrittenInRange (s : State) : Prop :=
  s.uninit = none → ∀ r : Reg, s.written r = true → r.inRange (s.get r) = true

/-- No register is unwritten and no `UNINIT` is recorded: what INIT leaves at the start of a run (R50, R241, R264). -/
def State.Initialised (s : State) : Prop := s.uninit = none ∧ ∀ r : Reg, s.written r = true

/-- `LFO_OUT2` is the fold of the level and direction beside it (R36), and `LFO_DT` the block's timer increment (R40). -/
def State.Coherent (s : State) : Prop := s.read .lfoOut2 = folded s ∧ s.get .lfoDt = s.get .pTimerInc

/-- The laws of R160 on a state, with the threshold they rest on (R33). -/
def State.LfoLaws (s : State) : Prop :=
  s.read .lfoTh = 32768 ∧ s.read .lfoT < 4194304 ∧ s.read .lfoOut ≤ 32767 ∧ s.read .lfoOut2 ≤ 32768 ∧ s.read .lfoDir ≤ 1

/-- The registers are in range and `LFO_DT` is an increment a rate function may give: what holds from a BLOCK on, until the next
INIT (R134, R138, R139). -/
def State.RateSet (s : State) : Prop := s.AllInRange ∧ 1 ≤ s.read .lfoDt ∧ s.read .lfoDt ≤ 1073741824 - 4194304

/-- A state that may be the end of a run (R264, R301). -/
def State.Final (s : State) : Prop := endOfRun s = .next s

/-! ## Frames -/

/-- Every register but those listed keeps its word and its validity. -/
def RegsKept (except : List Reg) (s t : State) : Prop :=
  ∀ r : Reg, r ∉ except → t.get r = s.get r ∧ t.written r = s.written r

/-- Nothing happens at a port beyond the events listed, in that order: no other event, no answer taken, and no further word
taken from `CMD_IN`. -/
def PortsKeptBut (new : List Event) (s t : State) : Prop :=
  t.events = s.events ++ new ∧ t.dlRd = s.dlRd ∧ t.cmdIn = s.cmdIn

/-! ## Who writes what -/

/-- The writers column of R30, by command: the registers a command may write. -/
def writesOf : Instr → List Reg
  | .nop => []
  | .init => Reg.all
  | .resume => [.gInputGain]
  | .setTime _ => [.pTime]
  | .setDepth _ => [.pDepth]
  | .paramIgnored _ _ => []
  | .block => [.lfoDt, .pTimerInc, .pDepthScale]
  | .sample _ => [.lfoT, .lfoDir, .lfoOut, .lfoOut2, .gInputGain]
  | .rdReg _ => []
  | .reserved _ => []

/-- The registers a command reads before it writes them, in the order of its pseudocode (R264), left to right in a line (log 9).
For SAMPLE these are the lines of R150, by the index it forms (R151, R152): with 0 the fold of R156 reads the direction and
then the level, under the threshold when falling; else the level (R154), the threshold (R155) and the direction, to invert or
to fold; and after them the lines of R210. -/
def readsOf (s : State) : Instr → List Reg
  | .nop => []
  | .init => []
  | .resume => []
  | .setTime _ => []
  | .setDepth _ => []
  | .paramIgnored _ _ => []
  | .block => [.pTime, .pDepth]
  | .sample _ =>
    (if (s.read .lfoT + s.read .lfoDt) % 1073741824 / 4194304 = 0 then
       [.lfoT, .lfoDt, .lfoDir] ++ if s.read .lfoDir = 1 then [.lfoTh, .lfoOut] else [.lfoOut]
     else [.lfoT, .lfoDt, .lfoOut, .lfoTh, .lfoDir]) ++ [.lfoTh, .pDepthScale, .gInputGain]
  | .rdReg sel => (Reg.ofSel sel).toList
  | .reserved _ => []

/-- The selects of R30. -/
def selectMap : List (BitVec 8 × Reg) :=
  [(0x00#8, .lfoT), (0x01#8, .lfoDt), (0x02#8, .lfoDir), (0x03#8, .lfoTh), (0x04#8, .lfoOut), (0x05#8, .lfoOut2),
   (0x06#8, .lfoCenter), (0x10#8, .pTime), (0x11#8, .pDepth), (0x12#8, .pTimerInc), (0x13#8, .pDepthScale),
   (0x20#8, .gInputGain)]

/-! ## Numbers of the assembler (R113) -/

/-- A number an operand may have: a 32-bit pattern, or a decimal in the s32 range. -/
def AsmNumber.IsOperand : AsmNumber → Prop
  | .hex n => n < 4294967296
  | .dec v => -2147483648 ≤ v ∧ v ≤ 2147483647

/-- The word an operand stands for: the pattern itself, or the two's-complement word of the value. -/
def AsmNumber.Denotes (w : Word) : AsmNumber → Prop
  | .hex n => w.toNat = n
  | .dec v => w.toInt = v

/-- A number a PARAM index or an RDREG select may have. -/
def AsmNumber.IsSelector : AsmNumber → Prop
  | .hex n => n ≤ 255
  | .dec v => 0 ≤ v ∧ v ≤ 255

/-- The selector a number stands for. -/
def AsmNumber.Selects (sel : BitVec 8) : AsmNumber → Prop
  | .hex n => sel.toNat = n
  | .dec v => (sel.toNat : Int) = v

/-! ## The gain sequence -/

/-- `G_n`: the gain after `n` updates from 0 (R204, R205). -/
def gainAfter : Nat → Int
  | 0 => 0
  | n + 1 => gainNext (gainAfter n)

/-- The gain is one of the values of R205. -/
def State.GainInSequence (s : State) : Prop := ∃ n : Nat, s.read .gInputGain = gainAfter n

end Sys2Proof.Machine
end

