-- ==== Sys2Proof/Certificates/Slice0/Obligations.lean ====
section
/-! DEFINITION. The statements for the provers. Each docstring names the rules of spec/ it formalises. An integer quotient
`/` by a positive number is the floor of R12. A statement over every state holds in particular where a register that is read
is still unwritten: the hardware then reads an unspecified word (R264) and the model the word it holds, at power-on a free value
(log 1), and records it (the model's choice, log 2); no statement uses which word that is. -/

open Sys2Proof Sys2Proof.Machine

/-! ## Encoding -/

/-- R113, R115, R101, R103: every well-formed command is read back from its words, whatever follows them. -/
def Obligations.DecodeOfEncode : Prop :=
  ∀ (i : Instr) (rest : List Word), i.wellFormed = true → decode (encode i ++ rest) = .ok (i, rest)

/-- R104: one operand word is consumed exactly when `OPC` is 0x03 or 0x05, whatever `SEL` and `RSV` are, and the command that
is read is well formed (R111: every word decodes). -/
def Obligations.LengthFromOpcodeAlone : Prop :=
  ∀ (w operand : Word) (rest : List Word), ∃ i : Instr, i.wellFormed = true ∧
    decode (w :: operand :: rest) =
      .ok (i, if opcOf w = 0x03#8 ∨ opcOf w = 0x05#8 then rest else operand :: rest)

/-- R106, and the rows of R103 that ignore `SEL`: two streams that differ in the first word's `RSV`, or in its `SEL` under an
opcode other than PARAM and RDREG, are read alike. -/
def Obligations.IgnoredBitsDoNotMatter : Prop :=
  ∀ (opc : BitVec 8) (rsv rsv' : BitVec 16) (sel sel' : BitVec 8) (rest : List Word),
    decode (commandWord opc rsv sel :: rest) = decode (commandWord opc rsv' sel :: rest) ∧
    (opc ≠ 0x03#8 → opc ≠ 0x06#8 →
      decode (commandWord opc rsv sel :: rest) = decode (commandWord opc rsv' sel' :: rest))

/-- R112: in the order of the opcode table every word finds a row, and the decoder reads that row's command and number of
operand words. -/
def Obligations.DecoderFollowsOpcodeTable : Prop :=
  ∀ w operand : Word, ∃ row : OpcodeRow, rowOf w = some row ∧
    row.mnemonic = (decodeCommand w operand).mnemonic ∧
    row.operandWords = if takesOperand (opcOf w) then 1 else 0

/-- R115: the encoding examples, word for word. -/
def Obligations.EncodingExamples : Prop :=
  decode [0x01000000#32] = .ok (.init, []) ∧
  decode [0x03000000#32, 0x20000000#32] = .ok (.setTime 0x20000000#32, []) ∧
  decode [0x03000001#32, 0xFFFFFFFF#32] = .ok (.setDepth 0xFFFFFFFF#32, []) ∧
  decode [0x03000007#32, 0x12345678#32] = .ok (.paramIgnored 0x07#8 0x12345678#32, []) ∧
  decode [0x05000000#32, 0x01000000#32] = .ok (.sample 0x01000000#32, []) ∧
  decode [0x06000020#32] = .ok (.rdReg 0x20#8, []) ∧ Reg.ofSel 0x20#8 = some .gInputGain ∧
  decode [0x0400FF00#32] = .ok (.block, []) ∧
  decode [0x7F000000#32] = .ok (.reserved 0x7F#8, [])

/-- R76: a transport sends the least significant byte of each word first, and so carries every stream of words. -/
def Obligations.TransportCarriesWords : Prop :=
  (∀ w : Word, (bytesOfWord w).map BitVec.toNat =
    [w.toNat % 256, w.toNat / 256 % 256, w.toNat / 65536 % 256, w.toNat / 16777216]) ∧
  (∀ ws : List Word, wordsOfBytes (ws.flatMap bytesOfWord) = ws)

/-- R113, I22, on lines already split (log 13): SETTIME, SETDEPTH, PARAM and SAMPLE take exactly the operands in the s32
range, decimal or hexadecimal, and PARAM and RDREG exactly the indices and selects from 0 to 255; each line then stands for the
words of R113's table; RDREG of a register name is RDREG of that register's select (R30). -/
def Obligations.AssemblerTakesExactlyTheRange : Prop :=
  (∀ v : AsmNumber, v.IsOperand → ∃ w : Word, v.Denotes w ∧
    assemble (.setTime v) = .ok [0x03000000#32, w] ∧ assemble (.setDepth v) = .ok [0x03000001#32, w] ∧
    assemble (.sample v) = .ok [0x05000000#32, w] ∧
    (∀ i : AsmNumber, i.IsSelector → ∃ (sel : BitVec 8) (c : Word), i.Selects sel ∧ c.toNat = 0x03000000 + sel.toNat ∧
      assemble (.param i v) = .ok [c, w])) ∧
  (∀ v : AsmNumber, ¬v.IsOperand →
    assemble (.setTime v) = .error .operandRange ∧ assemble (.setDepth v) = .error .operandRange ∧
    assemble (.sample v) = .error .operandRange ∧
    (∀ i : AsmNumber, i.IsSelector → assemble (.param i v) = .error .operandRange)) ∧
  (∀ i : AsmNumber, i.IsSelector → ∃ (sel : BitVec 8) (c : Word), i.Selects sel ∧ c.toNat = 0x06000000 + sel.toNat ∧
    assemble (.rdReg (.number i)) = .ok [c]) ∧
  (∀ i : AsmNumber, ¬i.IsSelector → assemble (.rdReg (.number i)) = .error .selectorRange ∧
    (∀ v : AsmNumber, assemble (.param i v) = .error .selectorRange)) ∧
  (∀ r : Reg, ∃ (sel : BitVec 8) (c : Word), (sel, r) ∈ selectMap ∧ c.toNat = 0x06000000 + sel.toNat ∧
    assemble (.rdReg (.name r)) = .ok [c])

/-! ## The step -/

/-- R72, R103, R104: when the words on `CMD_IN` begin with a whole command, the step executes exactly it on the state without
its words; while no whole command has arrived the block is idle (R273). -/
def Obligations.StepRunsDecodedCommand : Prop :=
  (∀ (s : State) (i : Instr) (rest : List Word), decode s.cmdIn = .ok (i, rest) →
    step s = exec i { s with cmdIn := rest }) ∧
  (∀ (s : State) (e : DecodeReject), decode s.cmdIn = .error e → step s = .next s)

/-- R260, R266: every command completes, in every state and for every operand; where a register it reads is unwritten, that is
the model's choice (log 2). -/
def Obligations.EveryCommandCompletes : Prop :=
  ∀ (i : Instr) (s : State), ∃ t : State, exec i s = .next t

/-- R290: at power-on every register is unwritten, nothing is recorded (log 2), no port event has happened. -/
def Obligations.PowerOnState : Prop :=
  (∀ r : Reg, State.reset.written r = false) ∧ State.reset.uninit = none ∧ State.reset.events = []

/-! ## Parameter store -/

/-- R131: SETTIME stores `max(v, 0)` and changes nothing else. -/
def Obligations.SetTimeStoresClampedTime : Prop :=
  ∀ (v : Word) (s : State), ∃ t : State, exec (.setTime v) s = .next t ∧
    t.read .pTime = max v.toInt 0 ∧ t.written .pTime = true ∧
    RegsKept [.pTime] s t ∧ PortsKeptBut [] s t ∧ t.uninit = s.uninit

/-- R132: SETDEPTH stores `max(v, 0)` and changes nothing else. -/
def Obligations.SetDepthStoresClampedDepth : Prop :=
  ∀ (v : Word) (s : State), ∃ t : State, exec (.setDepth v) s = .next t ∧
    t.read .pDepth = max v.toInt 0 ∧ t.written .pDepth = true ∧
    RegsKept [.pDepth] s t ∧ PortsKeptBut [] s t ∧ t.uninit = s.uninit

/-- R133: PARAM with `SEL` from 2 to 255 consumes its two words and changes nothing. -/
def Obligations.IgnoredParamConsumesOperandOnly : Prop :=
  (∀ (sel : BitVec 8) (v : Word) (s : State), exec (.paramIgnored sel v) s = .next s) ∧
  (∀ (rsv : BitVec 16) (sel : BitVec 8) (v : Word) (rest : List Word) (s : State), 2 ≤ sel.toNat →
    step { s with cmdIn := commandWord 0x03#8 rsv sel :: v :: rest } = .next { s with cmdIn := rest })

/-- R138: BLOCK writes `RATE_INC_FN(P_TIME)` to `P_TIMER_INC` and `LFO_DT`, `DEPTH_SCALE_FN(P_DEPTH)` to `P_DEPTH_SCALE`, and
changes nothing else when the two registers it reads are written; a second BLOCK writes the same values. Where one of the two is
unwritten, completing is the model's choice (log 2). -/
def Obligations.BlockDerivesParameters : Prop :=
  ∀ s : State, ∃ t : State, exec .block s = .next t ∧
    t.get .pTimerInc = Config.hw.rateInc (s.get .pTime) ∧
    t.get .lfoDt = Config.hw.rateInc (s.get .pTime) ∧
    t.get .pDepthScale = Config.hw.depthScale (s.get .pDepth) ∧
    (∀ r ∈ [Reg.pTimerInc, .lfoDt, .pDepthScale], t.written r = true) ∧
    RegsKept [.pTimerInc, .lfoDt, .pDepthScale] s t ∧ PortsKeptBut [] s t ∧
    (s.written .pTime = true → s.written .pDepth = true → t.uninit = s.uninit) ∧
    (∀ u : State, exec .block t = .next u → u.regs = t.regs)

/-- R134, R135, through BLOCK: the increment lies in 1 to 2^30 - 2^22, a larger time gives no larger increment, the depth
scale lies in 1 to 2^24, a larger depth gives no smaller scale; each depends on its own parameter alone. -/
def Obligations.BlockRespectsDerivationContracts : Prop :=
  ∀ s s' t t' : State, exec .block s = .next t → exec .block s' = .next t' →
    (s'.read .pTime < 2147483648 →
      (1 ≤ t'.read .lfoDt ∧ t'.read .lfoDt ≤ 1073741824 - 4194304) ∧
      (s.read .pTime ≤ s'.read .pTime → t'.read .lfoDt ≤ t.read .lfoDt) ∧
      (s.read .pTime = s'.read .pTime → t.read .lfoDt = t'.read .lfoDt)) ∧
    (s'.read .pDepth < 2147483648 →
      (1 ≤ t'.read .pDepthScale ∧ t'.read .pDepthScale ≤ 16777216) ∧
      (s.read .pDepth ≤ s'.read .pDepth → t.read .pDepthScale ≤ t'.read .pDepthScale) ∧
      (s.read .pDepth = s'.read .pDepth → t.read .pDepthScale = t'.read .pDepthScale))

/-- R137, R294: a PARAM before a SAMPLE changes neither the SAMPLE's port events nor any register it leaves but the parameter
itself: the derived registers wait for the next BLOCK. -/
def Obligations.ParameterChangeWaitsForBlock : Prop :=
  ∀ (v x : Word) (s p t u : State), (exec (.setTime v) s = .next p ∨ exec (.setDepth v) s = .next p) →
    exec (.sample x) s = .next t → exec (.sample x) p = .next u →
    u.events = t.events ∧ (∀ r : Reg, r ≠ .pTime → r ≠ .pDepth → u.get r = t.get r) ∧
    p.get .lfoDt = s.get .lfoDt ∧ p.get .pTimerInc = s.get .pTimerInc ∧ p.get .pDepthScale = s.get .pDepthScale

/-! ## Lifecycle -/

/-- R241: INIT issues `DL.Init` and `DL.Reset` and leaves the same twelve valid registers from every state. -/
def Obligations.InitWritesEveryRegister : Prop :=
  ∀ s : State, ∃ t : State, exec .init s = .next t ∧
    t.get .pTime = 0x20000000#32 ∧ t.get .pDepth = 0x40000000#32 ∧ t.get .gInputGain = 0#32 ∧
    t.get .lfoDt = 0x40000000#32 ∧ t.get .pTimerInc = 0x40000000#32 ∧ t.get .lfoTh = 32768#32 ∧
    t.get .lfoOut = 0#32 ∧ t.get .lfoOut2 = 0#32 ∧ t.get .lfoT = 0#32 ∧ t.get .lfoDir = 0#32 ∧
    t.get .lfoCenter = 0x4000#32 ∧ t.get .pDepthScale = 0#32 ∧
    (∀ r : Reg, t.written r = true) ∧ PortsKeptBut [.dlInit, .dlReset] s t ∧ t.uninit = s.uninit

/-- R242: RESUME issues `DL.Reset`, writes 0 to `G_INPUT_GAIN` and changes nothing else. -/
def Obligations.ResumeResetsGainOnly : Prop :=
  ∀ s : State, ∃ t : State, exec .resume s = .next t ∧ t.get .gInputGain = 0#32 ∧ t.written .gInputGain = true ∧
    RegsKept [.gInputGain] s t ∧ PortsKeptBut [.dlReset] s t ∧ t.uninit = s.uninit

/-- R243: NOP changes nothing, and every word with opcode 0x00 is NOP. -/
def Obligations.NopChangesNothing : Prop :=
  (∀ s : State, exec .nop s = .next s) ∧
  (∀ (rsv : BitVec 16) (sel : BitVec 8) (rest : List Word) (s : State),
    step { s with cmdIn := commandWord 0x00#8 rsv sel :: rest } = .next { s with cmdIn := rest })

/-- R107: a reserved opcode, 0x07 to 0xFF, consumes its one word and has no effect, exactly as NOP. -/
def Obligations.ReservedOpcodeIsNop : Prop :=
  (∀ (opc : BitVec 8) (s : State), exec (.reserved opc) s = exec .nop s ∧ exec (.reserved opc) s = .next s) ∧
  (∀ (opc : BitVec 8) (rsv : BitVec 16) (sel : BitVec 8) (rest : List Word) (s : State), 7 ≤ opc.toNat →
    step { s with cmdIn := commandWord opc rsv sel :: rest } = .next { s with cmdIn := rest })

/-- R244, R110, R30: RDREG returns the selected register's word, or 0 for a reserved select, as its only port event; it
changes no register, and a second RDREG of the select returns the same word. Where the register is unwritten, completing is the
model's choice (log 2). -/
def Obligations.RdregReturnsSelectedRegister : Prop :=
  ∀ (sel : BitVec 8) (s : State), ∃ (t : State) (w : Word), exec (.rdReg sel) s = .next t ∧
    (∀ r : Reg, (sel, r) ∈ selectMap → w = s.get r) ∧ ((∀ r : Reg, (sel, r) ∉ selectMap) → w = 0#32) ∧
    RegsKept [] s t ∧ PortsKeptBut [.res w] s t ∧
    ((∀ r : Reg, (sel, r) ∈ selectMap → s.written r = true) → t.uninit = s.uninit) ∧
    (∀ u : State, exec (.rdReg sel) t = .next u → u.events = t.events ++ [.res w])

/-- R245, R78: INIT then RESUME leaves exactly the registers INIT alone leaves and issues `DL.Init`, `DL.Reset`, `DL.Reset`,
and a second INIT or a second RESUME leaves the registers as the first did. -/
def Obligations.InitThenResumeIsInit : Prop :=
  ∀ s : State, ∃ t u : State, exec .init s = .next t ∧ exec .resume t = .next u ∧
    u.regs = t.regs ∧ u.valid = t.valid ∧ u.events = s.events ++ [.dlInit, .dlReset, .dlReset] ∧
    (∀ v : State, exec .init t = .next v → v.regs = t.regs ∧ v.valid = t.valid) ∧
    (∀ v : State, exec .resume u = .next v → v.regs = u.regs ∧ v.valid = u.valid)

/-! ## SAMPLE: port events -/

/-- R210, R73, R212 to R216: SAMPLE issues exactly one `DL.Output`, `DL.Update`, `DL.Input` and `OUT`, in that order, with the
values of steps c to g: the offset uses the fold this frame leaves, the delay input the gain this frame found, the output the
unscaled sample. The limiter is the statement's `limFb` and `limWet`, which the limiter's own statements describe. Where a register SAMPLE reads is unwritten, completing is the model's choice
(log 2); where one is outside its range, so is keeping the low 32 bits of the offset and the delay input (log 8); the order in
which listed answers are taken is log 4. -/
def Obligations.SampleIssuesPortEvents : Prop :=
  ∀ (x : Word) (s : State), ∃ t : State, exec (.sample x) s = .next t ∧
    (let wet := s.dlAnswer.toInt
     let off := (s.read .lfoTh / 2 - t.read .lfoOut2) * s.read .pDepthScale / 16777216
     let fb := limFb Config.hw wet * 14935581 / 16777216
     let d := min (max (x.toInt * s.read .gInputGain / 16777216 + fb) (-2147483648)) 2147483647
     let y := min (max (x.toInt * 8388608 / 16777216 + limWet Config.hw wet * 8388608 / 16777216) (-2147483648)) 2147483647
     t.events = s.events ++ [.dlOutput s.dlAnswer, .dlUpdate (wordOf off), .dlInput (wordOf d),
       .out (wordOf y) (wordOf y) (wordOf y) (wordOf y)]) ∧
    t.dlRd = s.dlRd.tail ∧ t.cmdIn = s.cmdIn ∧
    (∀ (a : Word) (rest : List Word), s.dlRd = a :: rest → s.dlAnswer = a)

/-- R212: with every register in range, the offset SAMPLE sends is `(16384 - LFO_OUT2) * P_DEPTH_SCALE` floored by 2^24, with
the fold this frame leaves, and lies in -16384 to 16384; with a depth scale of 0 it is 0, with one of at most 262144
(the reference's largest) it lies in -256 to 256; the floor is asymmetric.
Where a register SAMPLE reads is unwritten, completing is the model's choice (log 2). -/
def Obligations.SampleOffsetBounded : Prop :=
  ∀ (x : Word) (s : State), s.AllInRange → ∃ (t : State) (a off d y : Word), exec (.sample x) s = .next t ∧
    t.events = s.events ++ [.dlOutput a, .dlUpdate off, .dlInput d, .out y y y y] ∧
    off.toInt = (16384 - t.read .lfoOut2) * s.read .pDepthScale / 16777216 ∧
    -16384 ≤ off.toInt ∧ off.toInt ≤ 16384 ∧ (s.read .pDepthScale = 0 → off.toInt = 0) ∧
    (s.read .pDepthScale ≤ 262144 → -256 ≤ off.toInt ∧ off.toInt ≤ 256) ∧
    (s.read .pDepthScale = 46341 → (t.read .lfoOut2 = 1 → off.toInt = 45) ∧ (t.read .lfoOut2 = 32767 → off.toInt = -46))

/-- R214, R213, R261 (e): the delay-line input is the saturated sum of the scaled sample and the feedback, for every gain from
0 to 1; the input part alone never leaves the s32 range and the feedback lies in -17922698 to 17922697.
Where a register SAMPLE reads is unwritten, completing is the model's choice (log 2). -/
def Obligations.DelayInputSaturates : Prop :=
  ∀ (x : Word) (s : State), s.read .gInputGain ≤ 16777216 →
    ∃ (t : State) (off d y : Word) (fb : Int), exec (.sample x) s = .next t ∧
    t.events = s.events ++ [.dlOutput s.dlAnswer, .dlUpdate off, .dlInput d, .out y y y y] ∧
    fb = limFb Config.hw s.dlAnswer.toInt * 14935581 / 16777216 ∧ -17922698 ≤ fb ∧ fb ≤ 17922697 ∧
    -2147483648 ≤ x.toInt * s.read .gInputGain / 16777216 ∧ x.toInt * s.read .gInputGain / 16777216 ≤ 2147483647 ∧
    (let sum := x.toInt * s.read .gInputGain / 16777216 + fb
     (-2147483648 ≤ sum → sum ≤ 2147483647 → d.toInt = sum) ∧ (2147483647 < sum → d.toInt = 2147483647) ∧
     (sum < -2147483648 → d.toInt = -2147483648))

/-- R215, R224: the output is `(x >> 1) + (LIM_WET(wet) >> 1)` exactly, never changed by the saturation, on all four channels
(R216), in every state.
Where a register SAMPLE reads is unwritten, completing is the model's choice (log 2). -/
def Obligations.OutputIsHalfDryHalfWet : Prop :=
  ∀ (x : Word) (s : State), ∃ (t : State) (off d y : Word), exec (.sample x) s = .next t ∧
    t.events = s.events ++ [.dlOutput s.dlAnswer, .dlUpdate off, .dlInput d, .out y y y y] ∧
    y.toInt = x.toInt / 2 + limWet Config.hw s.dlAnswer.toInt / 2 ∧
    -1073741824 - 8388608 ≤ y.toInt ∧ y.toInt ≤ 1073741823 + 8388608

/-- R217 (e), R215: the output depends on the sample and the delay line's answer alone: two states with the same answer give
the same output, whatever their registers. -/
def Obligations.OutputIgnoresRegisters : Prop :=
  ∀ (x : Word) (s s' t t' : State), s.dlAnswer = s'.dlAnswer → exec (.sample x) s = .next t → exec (.sample x) s' = .next t' →
    ∃ y : Word, t.events.getLast? = some (.out y y y y) ∧ t'.events.getLast? = some (.out y y y y)

/-- R218 (a), R184: with a zero sample and a zero answer, the delay input and the output are zero, in every state.
Where a register SAMPLE reads is unwritten, completing is the model's choice (log 2). -/
def Obligations.ZeroInZeroOut : Prop :=
  ∀ s : State, s.dlAnswer = 0#32 → ∃ (t : State) (off : Word), exec (.sample 0#32) s = .next t ∧
    t.events = s.events ++ [.dlOutput 0#32, .dlUpdate off, .dlInput 0#32, .out 0#32 0#32 0#32 0#32]

/-- R223, R207: after RESUME the first SAMPLE of silence is silent exactly when the delay line answers 0 or 1, and the first
SAMPLE of any input feeds the delay line the feedback alone.
Where a register SAMPLE reads is unwritten, completing is the model's choice (log 2). -/
def Obligations.FirstFrameAfterResume : Prop :=
  ∀ (x : Word) (s t : State), exec .resume s = .next t →
    (∃ (u : State) (off d y : Word), exec (.sample x) t = .next u ∧
      u.events = t.events ++ [.dlOutput t.dlAnswer, .dlUpdate off, .dlInput d, .out y y y y] ∧
      d.toInt = limFb Config.hw t.dlAnswer.toInt * 14935581 / 16777216 ∧
      (t.dlAnswer = 0#32 → d = 0#32) ∧
      (x = 0#32 → y.toInt = limWet Config.hw t.dlAnswer.toInt / 2 ∧ (y = 0#32 ↔ t.dlAnswer = 0#32 ∨ t.dlAnswer = 1#32)))

/-! ## SAMPLE: the LFO -/

/-- R150 to R156, R158: what SAMPLE does to the LFO registers, from every state whose registers are in range: the phase always
advances; the level, the direction and the truncation follow only a nonzero index; the fold is always recomputed.
Where a register SAMPLE reads is unwritten, completing is the model's choice (log 2). -/
def Obligations.SampleStepsLfo : Prop :=
  ∀ (x : Word) (s : State), s.AllInRange → ∃ t : State, exec (.sample x) s = .next t ∧
    (let phase := (s.read .lfoT + s.read .lfoDt) % 1073741824
     let idx := phase / 4194304
     let level := 65536 - (65536 - s.read .lfoOut) * (lfoTable idx.toNat : Int) / 65536
     (if idx = 0 then
        t.read .lfoT = phase ∧ t.read .lfoOut = s.read .lfoOut ∧ t.read .lfoDir = s.read .lfoDir
      else
        t.read .lfoT = phase % 4194304 ∧
        (if s.read .lfoTh ≤ level then
           t.read .lfoDir = 1 - s.read .lfoDir ∧ t.read .lfoOut = level - s.read .lfoTh
         else t.read .lfoDir = s.read .lfoDir ∧ t.read .lfoOut = level)) ∧
     t.read .lfoOut2 = if t.read .lfoDir = 1 then s.read .lfoTh - t.read .lfoOut else t.read .lfoOut)

/-- R210 (reads and writes), R30: SAMPLE writes no register but the five it names, validates the three it always writes, and
records nothing when every register is written.
Where a register SAMPLE reads is unwritten, completing is the model's choice (log 2). -/
def Obligations.SampleFrameCondition : Prop :=
  ∀ (x : Word) (s : State), ∃ t : State, exec (.sample x) s = .next t ∧
    RegsKept [.lfoT, .lfoOut, .lfoDir, .lfoOut2, .gInputGain] s t ∧
    t.written .lfoT = true ∧ t.written .lfoOut2 = true ∧ t.written .gInputGain = true ∧
    ((∀ r : Reg, s.written r = true) → t.uninit = s.uninit)

/-- R154, R155: with a level from 0 to 32767 and an index from 1 to 255, the new level is above the old one and at most 49107,
so after a crossing of 32768 the overshoot is at most 16339. -/
def Obligations.LevelStrictlyRises : Prop :=
  ∀ (level : Int) (idx : Nat), 0 ≤ level → level ≤ 32767 → 1 ≤ idx → idx ≤ 255 →
    level + 1 ≤ approach level idx ∧ approach level idx ≤ 49107 ∧
    approach level idx = 65536 - (65536 - level) * (lfoTable idx : Int) / 65536 ∧
    (65536 - level) * (lfoTable idx : Int) < 4294967296 ∧
    (32768 ≤ approach level idx → 0 ≤ approach level idx - 32768 ∧ approach level idx - 32768 ≤ 16339)

/-- R157: with an increment of at most 2^30 - 2^22, a SAMPLE raises the accumulated phase (2^22 units per table step consumed,
plus `LFO_T`) by exactly `LFO_DT`; with 2^30 it does not move.
Where a register SAMPLE reads is unwritten, completing is the model's choice (log 2). -/
def Obligations.PhaseNeverStalls : Prop :=
  ∀ (x : Word) (s : State), s.AllInRange → ∃ t : State, exec (.sample x) s = .next t ∧
    (s.read .lfoDt ≤ 1073741824 - 4194304 →
      4194304 * (tableIndex s : Int) + t.read .lfoT = s.read .lfoT + s.read .lfoDt) ∧
    (s.read .lfoDt = 1073741824 → tableIndex s = 0 ∧ t.read .lfoT = s.read .lfoT)

/-- R139: from any state in range a BLOCK leaves a positive timer increment, the same in `LFO_DT`, at most 2^30 - 2^22; every
command but INIT keeps that; and every SAMPLE from a state with it, so every SAMPLE after a BLOCK until the next INIT, strictly
advances the accumulated phase. -/
def Obligations.PhaseAdvancesAfterBlock : Prop :=
  (∀ s t : State, s.AllInRange → exec .block s = .next t →
    t.RateSet ∧ 1 ≤ t.read .pTimerInc ∧ t.read .lfoDt = t.read .pTimerInc) ∧
  (∀ (i : Instr) (s t : State), i ≠ .init → s.RateSet → exec i s = .next t → t.RateSet) ∧
  (∀ (x : Word) (s t : State), s.RateSet → exec (.sample x) s = .next t →
    s.read .lfoT < 4194304 * (tableIndex s : Int) + t.read .lfoT)

/-- R159, R35: `LFO_DIR` moves between its two values exactly when a SAMPLE's step consumes a table step and its new level
reaches or passes the threshold; otherwise only INIT writes it. -/
def Obligations.DirectionChangesOnlyAtCrossing : Prop :=
  ∀ (i : Instr) (s t : State), s.AllInRange → exec i s = .next t →
    (∀ x : Word, i = .sample x →
      (t.read .lfoDir = 1 - s.read .lfoDir ↔ tableIndex s ≠ 0 ∧ s.read .lfoTh ≤ newLevel s) ∧
      (t.read .lfoDir = s.read .lfoDir ↔ ¬(tableIndex s ≠ 0 ∧ s.read .lfoTh ≤ newLevel s))) ∧
    ((∀ x : Word, i ≠ .sample x) → i ≠ .init → t.get .lfoDir = s.get .lfoDir)

/-- R160: after INIT from any state, and after every command from a state that keeps them, `LFO_T < 2^22`,
`LFO_OUT <= 32767` and `LFO_OUT2 <= 32768`; every flip of `LFO_DIR` by a SAMPLE has a pre-flip level at or above `LFO_TH`. -/
def Obligations.LfoLawsHoldAfterEveryCommand : Prop :=
  (∀ s t : State, exec .init s = .next t → t.LfoLaws) ∧
  (∀ (i : Instr) (s t : State), s.LfoLaws → exec i s = .next t → t.LfoLaws ∧
    (i ≠ .init → t.read .lfoDir ≠ s.read .lfoDir → s.read .lfoTh ≤ newLevel s))

/-- R43: each entry is `2^16 * 2^(-i/256)` rounded to nearest (both sides raised to the power 256), the entries strictly
decrease from 65536 to 32857, and they sum to 12118596. -/
def Obligations.LfoTableIsRoundedDecay : Prop :=
  (∀ i < 256, (2 * lfoTable i - 1) ^ 256 * 2 ^ i < 2 ^ (17 * 256) ∧ 2 ^ (17 * 256) < (2 * lfoTable i + 1) ^ 256 * 2 ^ i) ∧
  (∀ i < 255, lfoTable (i + 1) < lfoTable i) ∧ lfoTable 0 = 65536 ∧ lfoTable 255 = 32857 ∧
  ((List.range 256).map lfoTable).sum = 12118596

/-! ## The soft limiter -/

/-- R184: below the threshold `c - ONE + k` the limiter returns its input; both thresholds of the hardware are positive and
both instances return 0 for 0. -/
def Obligations.LimiterLinearBelowThreshold : Prop :=
  (∀ (cfg : Config) (k c : Nat) (x : Int), (x.natAbs : Int) < (c : Int) - 16777216 + (k : Int) → softLimit cfg k x c = x) ∧
  limThreshold K_FB C_FB = 5033165 ∧ limThreshold K_WET C_WET = 838861 ∧
  limFb Config.hw 0 = 0 ∧ limWet Config.hw 0 = 0

/-- R185: at and above the threshold the result has a magnitude from the threshold to the ceiling and the sign of its input,
for every soft-clip function that meets the contract and every knee and ceiling of R181. -/
def Obligations.LimiterBoundedAboveThreshold : Prop :=
  ∀ (cfg : Config) (k c : Nat) (x : Int), cfg.Contract → k < 16777216 → 16777216 ≤ c →
    -2147483648 ≤ x → x ≤ 2147483647 → (c : Int) - 16777216 + (k : Int) ≤ (x.natAbs : Int) →
    ∃ m : Int, (c : Int) - 16777216 + (k : Int) ≤ m ∧ m ≤ (c : Int) ∧
      (0 < x → softLimit cfg k x c = m) ∧ (x < 0 → softLimit cfg k x c = -m)

/-- R186 (a) to (d): odd symmetry for every input but -2^31, continuity at the breakpoint, a magnitude that does not decrease,
and no gain where the soft-clip function has none; for every function that meets the contract. -/
def Obligations.LimiterShape : Prop :=
  ∀ (cfg : Config) (k c : Nat) (x : Int), cfg.Contract → k < 16777216 → 16777216 ≤ c →
    -2147483648 ≤ x → x ≤ 2147483647 →
    (x ≠ -2147483648 → softLimit cfg k (-x) c = -softLimit cfg k x c) ∧
    ((x.natAbs : Int) = (c : Int) - 16777216 + (k : Int) → softLimit cfg k x c = x) ∧
    (∀ x' : Int, -2147483648 ≤ x' → x' ≤ 2147483647 → x.natAbs ≤ x'.natAbs →
      (softLimit cfg k x c).natAbs ≤ (softLimit cfg k x' c).natAbs) ∧
    ((∀ u : Nat, cfg.softclip k u ≤ u) → (softLimit cfg k x c).natAbs ≤ x.natAbs)

/-- R183: the reference curve meets what R182 asks of a soft-clip function, is strictly below `ONE - k` and never above its
argument. -/
def Obligations.ReferenceSoftclipMeetsContract : Prop :=
  ∀ k u u' : Nat, k < 16777216 → u ≤ u' →
    Config.softclipRef k u = u * (16777216 - k) / (u + (16777216 - k)) ∧
    Config.softclipRef k u < 16777216 - k ∧ Config.softclipRef k 0 = 0 ∧
    Config.softclipRef k u ≤ Config.softclipRef k u' ∧ Config.softclipRef k u ≤ u

/-- R136: the reference rate, at every sample rate, and the reference depth meet the contracts of R134 and R135, and at a
sample rate of 48000 both have the values of R136's table. They are stated in the model's integer form of R136 (log 12). -/
def Obligations.ReferenceDerivationsMeetContract : Prop :=
  (∀ fs τ τ' : Nat, τ ≤ τ' → τ' < 2147483648 →
    1 ≤ Config.rateIncRef fs τ ∧ Config.rateIncRef fs τ ≤ 1073741824 - 4194304 ∧
    Config.rateIncRef fs τ' ≤ Config.rateIncRef fs τ ∧
    1 ≤ Config.depthScaleRef τ ∧ Config.depthScaleRef τ ≤ 16777216 ∧ Config.depthScaleRef τ ≤ Config.depthScaleRef τ') ∧
  [0, 0x10000000, 0x20000000, 0x40000000, 0x60000000, 0x7FFFFFFF].map (Config.rateIncRef 48000) =
    [357913, 175882, 86430, 20871, 5040, 1217] ∧
  [0, 0x10000000, 0x20000000, 0x40000000, 0x60000000, 0x7FFFFFFF].map Config.depthScaleRef =
    [8192, 12634, 19484, 46341, 110218, 262144]

/-! ## The gain ramp -/

/-- R200, R201, R202: SAMPLE's update of the gain, for every gain from 0 to `ONE`.
Where a register SAMPLE reads is unwritten, completing is the model's choice (log 2). -/
def Obligations.SampleRampsGain : Prop :=
  ∀ (x : Word) (s : State), s.read .gInputGain ≤ 16777216 → ∃ t : State, exec (.sample x) s = .next t ∧
    t.read .gInputGain =
      if s.read .gInputGain < 16776880 then s.read .gInputGain + (16777216 - s.read .gInputGain) / 16 else 16777216

/-- R203: after INIT and RESUME the gain is 0; every SAMPLE leaves it between its old value and `ONE`, raises it by at least 21
below the snap point, and keeps it at `ONE`; R206: no other command changes it. -/
def Obligations.GainBoundedAndMonotone : Prop :=
  ∀ (i : Instr) (s t : State), s.read .gInputGain ≤ 16777216 → exec i s = .next t →
    (i = .init ∨ i = .resume → t.read .gInputGain = 0) ∧
    (i ≠ .init → i ≠ .resume → s.read .gInputGain ≤ t.read .gInputGain ∧ t.read .gInputGain ≤ 16777216) ∧
    (∀ x : Word, i = .sample x →
      (s.read .gInputGain < 16776880 → s.read .gInputGain + 21 ≤ t.read .gInputGain) ∧
      (s.read .gInputGain = 16777216 → t.read .gInputGain = 16777216)) ∧
    ((∀ x : Word, i ≠ .sample x) → i ≠ .init → i ≠ .resume → t.get .gInputGain = s.get .gInputGain)

/-- R204, R205: up to the snap the gain after `n` updates from 0 is at most `ONE * (1 - 0.9375^n)`, equal to it for `n` up to 6,
and at most 9 units below it; update 168 gives `G_SNAP` and every later one `ONE`. Both sides are multiplied by 16^n. -/
def Obligations.GainFollowsExponentialLaw : Prop :=
  (∀ n : Nat, n ≤ 168 → gainAfter n * 16 ^ n ≤ 16777216 * (16 ^ n - 15 ^ n) ∧
    16777216 * (16 ^ n - 15 ^ n) ≤ (gainAfter n + 9) * 16 ^ n ∧
    (n ≤ 6 → gainAfter n * 16 ^ n = 16777216 * (16 ^ n - 15 ^ n))) ∧
  gainAfter 167 < 16776880 ∧ gainAfter 168 = 16776880 ∧ (∀ n : Nat, 169 ≤ n → gainAfter n = 16777216)

/-- R205, R206: INIT and RESUME put the gain at the start of the sequence of R205, and every command keeps it one of the
sequence's values. -/
def Obligations.GainStaysInSequence : Prop :=
  (∀ s t : State, (exec .init s = .next t ∨ exec .resume s = .next t) →
    t.read .gInputGain = gainAfter 0 ∧ t.GainInSequence) ∧
  (∀ s t : State, s.GainInSequence → step s = .next t → t.GainInSequence)

/-! ## Whole-machine rules -/

/-- R30 (writers), R49: a command changes no register, and validates none, that R30 does not list it as a writer of. -/
def Obligations.OnlyListedWritersWrite : Prop :=
  ∀ (i : Instr) (s t : State) (r : Reg), exec i s = .next t → r ∉ writesOf i →
    t.get r = s.get r ∧ t.written r = s.written r

/-- R73: SAMPLE issues `DL.Output`, `DL.Update`, `DL.Input`, `OUT`; INIT `DL.Init`, `DL.Reset`; RESUME `DL.Reset`; RDREG a
result word; no other command has a port event; none but SAMPLE takes an answer, and none takes a word of `CMD_IN` beyond its
own. -/
def Obligations.PortEventsInOrder : Prop :=
  ∀ (i : Instr) (s t : State), exec i s = .next t → t.cmdIn = s.cmdIn ∧ ∃ new : List Event, t.events = s.events ++ new ∧
    (match i with
     | .sample _ => t.dlRd = s.dlRd.tail ∧
        ∃ a off d y : Word, new = [.dlOutput a, .dlUpdate off, .dlInput d, .out y y y y]
     | .init => t.dlRd = s.dlRd ∧ new = [.dlInit, .dlReset]
     | .resume => t.dlRd = s.dlRd ∧ new = [.dlReset]
     | .rdReg _ => t.dlRd = s.dlRd ∧ ∃ w : Word, new = [.res w]
     | _ => t.dlRd = s.dlRd ∧ new = [])

/-- R30 (ranges), R31 to R42, as an invariant of every step from every state: as long as no unwritten register has been read,
every written register is in its range. -/
def Obligations.StepKeepsWrittenInRange : Prop :=
  ∀ s t : State, s.WrittenInRange → step s = .next t → t.WrittenInRange

/-- The invariant of `StepKeepsWrittenInRange` holds at power-on, where no register is written (R290). -/
def Obligations.PowerOnWrittenInRange : Prop := State.reset.WrittenInRange

/-- R30 (ranges): INIT puts all twelve registers in range from any state, and every step keeps them there, whatever the host
sends and the delay line answers. -/
def Obligations.StepKeepsAllInRange : Prop :=
  (∀ s t : State, exec .init s = .next t → t.AllInRange) ∧
  (∀ s t : State, s.AllInRange → step s = .next t → t.AllInRange)

/-- R36, R40, R32, R156: after INIT `LFO_OUT2` is the fold of the level and direction beside it and `LFO_DT` equals
`P_TIMER_INC`, and every step keeps both. -/
def Obligations.StepKeepsCoherent : Prop :=
  (∀ s t : State, exec .init s = .next t → t.Coherent) ∧
  (∀ s t : State, s.AllInRange → s.Coherent → step s = .next t → t.Coherent)

/-- R264 (its claim about runs that start with INIT), R241: INIT leaves no register unwritten, and from then on no step
records an `UNINIT`. -/
def Obligations.NoUninitAfterInit : Prop :=
  (∀ s t : State, s.uninit = none → exec .init s = .next t → t.Initialised) ∧
  (∀ s t : State, s.Initialised → step s = .next t → t.Initialised)

/-- The model's treatment of R264 (log 2): a command completes and records the first unwritten register its pseudocode reads
(R138, R150, R210, R244; left to right in a line, log 9), unless a record stands; a record is never cleared. -/
def Obligations.UnwrittenReadIsRecorded : Prop :=
  ∀ (i : Instr) (s t : State), exec i s = .next t →
    (∀ r : Reg, s.uninit = some r → t.uninit = some r) ∧
    (s.uninit = none → t.uninit = (readsOf s i).find? fun r => !s.written r)

/-- R264: in a run, a command that reads an unwritten register has no meaning but the fault, which names the first such
register (log 9 for the order within a line); a command that reads none has the next state `exec` gives it. -/
def Obligations.UnwrittenReadHasNoMeaningInRun : Prop :=
  ∀ (i : Instr) (s : State), s.uninit = none →
    (∀ r : Reg, (readsOf s i).find? (fun r => !s.written r) = some r → runCommand i s = .fault (.uninit r)) ∧
    ((∀ r ∈ readsOf s i, s.written r = true) → ∃ t : State, exec i s = .next t ∧ runCommand i s = .next t)

/-- R301, R264: a run that carries an `UNINIT` record has no end state, whatever commands follow; that each is
executed by `exec` meanwhile is the model's choice (log 2). -/
def Obligations.FaultedRunHasNoEnd : Prop :=
  ∀ (commands : List Instr) (s : State) (r : Reg), s.uninit = some r →
    runCommands commands s = .fault (.uninit r) ∧ ¬ s.Final

/-- R219: PROCESS of `n` samples, from a state no register of which is unwritten, ends in a state, and drives exactly `n`
outputs; of no samples it drives none. -/
def Obligations.ProcessDrivesOneOutputPerFrame : Prop :=
  ∀ (xs : List Word) (s : State), s.Initialised → ∃ t : State, runCommands (processCommands xs) s = .next t ∧
    (mainOut t.events).length = (mainOut s.events).length + xs.length ∧
    (subOut t.events).length = (subOut s.events).length + xs.length

/-- R295, R298: while `LFO_DT` is 2^30 and the depth scale 0, as INIT leaves them until the next BLOCK, a SAMPLE moves no
phase, level or direction and sends offset 0.
Where a register SAMPLE reads is unwritten, completing is the model's choice (log 2). -/
def Obligations.SampleBeforeBlockIsStill : Prop :=
  ∀ (x : Word) (s : State), s.AllInRange → s.read .lfoDt = 1073741824 → s.read .pDepthScale = 0 →
    ∃ (t : State) (a d y : Word), exec (.sample x) s = .next t ∧
      t.get .lfoT = s.get .lfoT ∧ t.get .lfoOut = s.get .lfoOut ∧ t.get .lfoDir = s.get .lfoDir ∧
      t.events = s.events ++ [.dlOutput a, .dlUpdate 0#32, .dlInput d, .out y y y y]
end

