-- ==== Sys2Proof/Laws/Arith.lean ====
section
/-! SUPPORT. The arithmetic of R12 and R13: what a shift, a product, a saturation and a write give. -/

namespace Sys2Proof.Machine

/-- A product by one primitive is the exact product, floored (R13). -/
theorem mulq_eq (a b : Int) (n : Nat) : mulq a b n = a * b / ((2 ^ n : Nat) : Int) := rfl

@[simp] theorem mulq24 (a b : Int) : mulq a b 24 = a * b / 16777216 := by simp [mulq_eq]

@[simp] theorem mulq16 (a b : Int) : mulq a b 16 = a * b / 65536 := by simp [mulq_eq]

@[simp] theorem asr_one (a : Int) : asr a 1 = a / 2 := by simp [asr]

@[simp] theorem asr_four (a : Int) : asr a 4 = a / 16 := by simp [asr]

/-- Saturation always lands in the s32 range (R12). -/
theorem sat32_range (v : Int) : -2147483648 ≤ sat32 v ∧ sat32 v ≤ 2147483647 := by
  simp only [sat32]; omega

/-- Saturation changes nothing that is in range (R12). -/
theorem sat32_of_range {v : Int} (h₁ : -2147483648 ≤ v) (h₂ : v ≤ 2147483647) : sat32 v = v := by
  simp only [sat32]; omega

/-- A `u32` value survives being written and read. -/
theorem wordOf_toNat {v : Int} (h₀ : 0 ≤ v) (h₁ : v < 4294967296) : ((wordOf v).toNat : Int) = v := by
  simp only [wordOf, BitVec.toNat_ofInt]
  omega

/-- An `s32` value survives being written and read. -/
theorem wordOf_toInt {v : Int} (h₀ : -2147483648 ≤ v) (h₁ : v ≤ 2147483647) : (wordOf v).toInt = v := by
  simp only [wordOf, BitVec.toInt_ofInt, Int.bmod]
  omega

/-- A word written from its own unsigned value is that word. -/
@[simp] theorem wordOf_natCast_toNat (w : Word) : wordOf (w.toNat : Int) = w := by
  apply BitVec.eq_of_toNat_eq
  have := wordOf_toNat (v := (w.toNat : Int)) (by omega) (by have := w.isLt; omega)
  omega

end Sys2Proof.Machine
end

