-- ==== Sys2Proof/Laws/Decode.lean ====
section
/-! SUPPORT. The fields of a command word (R101) and the decoder on them (R103, R104). -/

namespace Sys2Proof

variable (opc sel : BitVec 8) (rsv : BitVec 16)

@[simp] theorem opcOf_commandWord : opcOf (commandWord opc rsv sel) = opc := by
  ext i hi
  simp only [opcOf, commandWord, BitVec.getElem_extractLsb']
  rw [BitVec.getLsbD_append, BitVec.getLsbD_append]
  simp [show ¬ 24 + i < 8 by omega, show ¬ 24 + i - 8 < 16 by omega, show 24 + i - 8 - 16 = i by omega,
    BitVec.getLsbD_eq_getElem hi]

@[simp] theorem selOf_commandWord : selOf (commandWord opc rsv sel) = sel := by
  ext i hi
  simp only [selOf, commandWord, BitVec.getElem_extractLsb']
  rw [BitVec.getLsbD_append]
  simp [hi]

@[simp] theorem rsvOf_commandWord : rsvOf (commandWord opc rsv sel) = rsv := by
  ext i hi
  simp only [rsvOf, commandWord, BitVec.getElem_extractLsb']
  rw [BitVec.getLsbD_append, BitVec.getLsbD_append]
  simp [show ¬ 8 + i < 8 by omega, show 8 + i - 8 = i by omega, hi]

/-- A command that takes an operand (R104). -/
theorem decode_operand {w : Word} (operand : Word) (rest : List Word) (h : takesOperand (opcOf w) = true) :
    decode (w :: operand :: rest) = .ok (decodeCommand w operand, rest) := by
  simp [decode, h]

/-- A command that takes none (R104). -/
theorem decode_plain {w : Word} (rest : List Word) (h : takesOperand (opcOf w) = false) :
    decode (w :: rest) = .ok (decodeCommand w 0#32, rest) := by
  simp [decode, h]

/-- The opcodes that take an operand (R104). -/
theorem takesOperand_iff : takesOperand opc = true ↔ opc = 0x03#8 ∨ opc = 0x05#8 := by
  simp [takesOperand]

end Sys2Proof
end

