-- ==== Sys2Proof/Laws/State.lean ====
section
/-! SUPPORT. What each update of the state does to each field: one lemma per field per update. -/

namespace Sys2Proof.Machine

variable (s : State) (r r' : Reg) (v : Int) (e : Event) (reads : List Reg)

/-! ## Register write -/

@[simp] theorem State.get_put : (s.put r v).get r' = if r' = r then wordOf v else s.get r' := by
  cases r <;> cases r' <;> rfl

@[simp] theorem State.written_put : (s.put r v).written r' = if r' = r then true else s.written r' := by
  cases r <;> cases r' <;> rfl

@[simp] theorem State.uninit_put : (s.put r v).uninit = s.uninit := rfl
@[simp] theorem State.cmdIn_put : (s.put r v).cmdIn = s.cmdIn := rfl
@[simp] theorem State.dlRd_put : (s.put r v).dlRd = s.dlRd := rfl
@[simp] theorem State.events_put : (s.put r v).events = s.events := rfl

/-! ## Record of a read -/

@[simp] theorem State.get_noteReads : (s.noteReads reads).get r = s.get r := rfl
@[simp] theorem State.written_noteReads : (s.noteReads reads).written r = s.written r := rfl
@[simp] theorem State.regs_noteReads : (s.noteReads reads).regs = s.regs := rfl
@[simp] theorem State.valid_noteReads : (s.noteReads reads).valid = s.valid := rfl
@[simp] theorem State.cmdIn_noteReads : (s.noteReads reads).cmdIn = s.cmdIn := rfl
@[simp] theorem State.dlRd_noteReads : (s.noteReads reads).dlRd = s.dlRd := rfl
@[simp] theorem State.events_noteReads : (s.noteReads reads).events = s.events := rfl
@[simp] theorem State.uninit_noteReads :
    (s.noteReads reads).uninit = s.uninit.or (reads.find? fun r => !s.written r) := rfl

/-! ## Port event -/

@[simp] theorem State.get_emit : (s.emit e).get r = s.get r := rfl
@[simp] theorem State.written_emit : (s.emit e).written r = s.written r := rfl
@[simp] theorem State.regs_emit : (s.emit e).regs = s.regs := rfl
@[simp] theorem State.valid_emit : (s.emit e).valid = s.valid := rfl
@[simp] theorem State.uninit_emit : (s.emit e).uninit = s.uninit := rfl
@[simp] theorem State.cmdIn_emit : (s.emit e).cmdIn = s.cmdIn := rfl
@[simp] theorem State.dlRd_emit : (s.emit e).dlRd = s.dlRd := rfl
@[simp] theorem State.events_emit : (s.emit e).events = s.events ++ [e] := rfl

/-! ## Delay-line read -/

@[simp] theorem State.get_dlOutput : s.dlOutput.get r = s.get r := rfl
@[simp] theorem State.written_dlOutput : s.dlOutput.written r = s.written r := rfl
@[simp] theorem State.regs_dlOutput : s.dlOutput.regs = s.regs := rfl
@[simp] theorem State.valid_dlOutput : s.dlOutput.valid = s.valid := rfl
@[simp] theorem State.uninit_dlOutput : s.dlOutput.uninit = s.uninit := rfl
@[simp] theorem State.cmdIn_dlOutput : s.dlOutput.cmdIn = s.cmdIn := rfl
@[simp] theorem State.dlRd_dlOutput : s.dlOutput.dlRd = s.dlRd.tail := rfl
@[simp] theorem State.events_dlOutput : s.dlOutput.events = s.events ++ [.dlOutput s.dlAnswer] := rfl
@[simp] theorem State.dlAnswer_noteReads : (s.noteReads reads).dlAnswer = s.dlAnswer := rfl

/-- An answer the delay line has ready is the one taken (R74). -/
theorem State.dlAnswer_of_ready {a : Word} {rest : List Word} (h : s.dlRd = a :: rest) : s.dlAnswer = a := by
  simp [State.dlAnswer, h]

/-! ## The other port operations are one event each -/

@[simp] theorem State.dlUpdate_eq : s.dlUpdate v = s.emit (.dlUpdate (wordOf v)) := rfl
@[simp] theorem State.dlInput_eq : s.dlInput v = s.emit (.dlInput (wordOf v)) := rfl
@[simp] theorem State.dlInit_eq : s.dlInit = s.emit .dlInit := rfl
@[simp] theorem State.dlReset_eq : s.dlReset = s.emit .dlReset := rfl
@[simp] theorem State.outAll_eq :
    s.outAll v = s.emit (.out (wordOf v) (wordOf v) (wordOf v) (wordOf v)) := rfl
@[simp] theorem State.result_eq (w : Word) : s.result w = s.emit (.res w) := rfl

/-! ## Reads as integers -/

@[simp] theorem State.read_put : (s.put r v).read r' = if r' = r then ((wordOf v).toNat : Int) else s.read r' := by
  by_cases h : r' = r <;> simp [State.read, h]

@[simp] theorem State.read_noteReads : (s.noteReads reads).read r = s.read r := rfl
@[simp] theorem State.read_emit : (s.emit e).read r = s.read r := rfl
@[simp] theorem State.read_dlOutput : s.dlOutput.read r = s.read r := rfl

theorem State.read_nonneg : 0 ≤ s.read r := by simp [State.read]

theorem State.read_lt : s.read r < 4294967296 := by
  have := (s.get r).isLt
  simp only [State.read]; omega

/-- Two words with the same integer are the same word. -/
theorem State.get_eq_of_read_eq {s t : State} {r r' : Reg} (h : t.read r = s.read r') : t.get r = s.get r' := by
  simp only [State.read, Nat.cast_inj] at h
  exact BitVec.eq_of_toNat_eq h

/-! ## The registers the steps and the commands write, in one state -/

/-- A file is determined by its entries. -/
theorem RegFile.ext_get {α : Type} {f g : RegFile α} (h : ∀ r, f.get r = g.get r) : f = g := by
  cases f; cases g
  simp only [RegFile.mk.injEq]
  exact ⟨h .lfoT, h .lfoDt, h .lfoDir, h .lfoTh, h .lfoOut, h .lfoOut2, h .lfoCenter, h .pTime, h .pDepth, h .pTimerInc,
    h .pDepthScale, h .gInputGain⟩

/-- States that agree on every register have the same register words. -/
theorem State.regs_ext {s t : State} (h : ∀ r, s.get r = t.get r) : s.regs = t.regs := RegFile.ext_get h

/-- States that agree on every validity have the same validities. -/
theorem State.valid_ext {s t : State} (h : ∀ r, s.written r = t.written r) : s.valid = t.valid := RegFile.ext_get h

end Sys2Proof.Machine
end

