-- ==== Sys2Proof/Laws/GainRamp.lean ====
section
/-! SUPPORT. What one update of the gain gives (R200 to R202), and what `GAIN_STEP` leaves alone. -/

namespace Sys2Proof.Machine

variable (s : State) (r : Reg)

theorem gainNext_eq (g : Int) : gainNext g = if g < 16776880 then g + (16777216 - g) / 16 else 16777216 := by
  simp [gainNext]

/-- An update never leaves 0 to `ONE`, so it survives being written (R201). -/
theorem gainNext_range {g : Int} (h₀ : 0 ≤ g) (h₁ : g ≤ 16777216) : 0 ≤ gainNext g ∧ gainNext g ≤ 16777216 := by
  rw [gainNext_eq]; split_ifs <;> omega

@[simp] theorem gainStep_uninit : (gainStep s).uninit = s.uninit := State.uninit_put s .gInputGain _
@[simp] theorem gainStep_cmdIn : (gainStep s).cmdIn = s.cmdIn := State.cmdIn_put s .gInputGain _
@[simp] theorem gainStep_dlRd : (gainStep s).dlRd = s.dlRd := State.dlRd_put s .gInputGain _
@[simp] theorem gainStep_events : (gainStep s).events = s.events := State.events_put s .gInputGain _
@[simp] theorem gainStep_get :
    (gainStep s).get r = if r = .gInputGain then wordOf (gainNext (s.read .gInputGain)) else s.get r := by
  simp [gainStep]
@[simp] theorem gainStep_written : (gainStep s).written r = if r = .gInputGain then true else s.written r := by
  simp [gainStep]

end Sys2Proof.Machine
end

