-- ==== Sys2Proof/Laws/Lfo.lean ====
section
/-! SUPPORT. What `LFO_STEP` does, register by register (R150 to R158), and the arithmetic of its level (R154). -/

namespace Sys2Proof.Machine

variable (s : State) (r : Reg)

/-! ## Fields the step leaves alone -/

@[simp] theorem levelUpdate_uninit : (levelUpdate s).uninit = s.uninit := by simp only [levelUpdate]; split <;> rfl
@[simp] theorem levelUpdate_cmdIn : (levelUpdate s).cmdIn = s.cmdIn := by simp only [levelUpdate]; split <;> rfl
@[simp] theorem levelUpdate_dlRd : (levelUpdate s).dlRd = s.dlRd := by simp only [levelUpdate]; split <;> rfl
@[simp] theorem levelUpdate_events : (levelUpdate s).events = s.events := by simp only [levelUpdate]; split <;> rfl

@[simp] theorem lfoStep_uninit : (lfoStep s).uninit = s.uninit := by
  simp only [lfoStep, lfoAdvance, State.uninit_put]; split <;> simp
@[simp] theorem lfoStep_cmdIn : (lfoStep s).cmdIn = s.cmdIn := by
  simp only [lfoStep, lfoAdvance, State.cmdIn_put]; split <;> simp
@[simp] theorem lfoStep_dlRd : (lfoStep s).dlRd = s.dlRd := by
  simp only [lfoStep, lfoAdvance, State.dlRd_put]; split <;> simp
@[simp] theorem lfoStep_events : (lfoStep s).events = s.events := by
  simp only [lfoStep, lfoAdvance, State.events_put]; split <;> simp

/-! ## The step's registers -/

/-- Whether this step consumes a table step and its level reaches or passes the threshold (R153, R155). -/
abbrev Crosses (s : State) : Prop := tableIndex s ≠ 0 ∧ s.read .lfoTh ≤ newLevel s

/-- The level a step keeps, before it is written (R153 to R155). -/
def keptLevel (s : State) : Int := if s.read .lfoTh ≤ newLevel s then newLevel s - s.read .lfoTh else newLevel s

theorem levelUpdate_get : (levelUpdate s).get r =
    if r = .lfoOut then wordOf (keptLevel s)
    else if r = .lfoDir ∧ s.read .lfoTh ≤ newLevel s then wordOf (1 - s.read .lfoDir) else s.get r := by
  by_cases h : s.read .lfoTh ≤ newLevel s
  · simp [levelUpdate, crosses, keptLevel, flip, h]
  · simp [levelUpdate, crosses, keptLevel, h]

theorem levelUpdate_written : (levelUpdate s).written r =
    if r = .lfoOut then true else if r = .lfoDir ∧ s.read .lfoTh ≤ newLevel s then true else s.written r := by
  by_cases h : s.read .lfoTh ≤ newLevel s
  · simp [levelUpdate, crosses, h]
  · simp [levelUpdate, crosses, h]

/-- All a step does to the registers but the fold. -/
theorem lfoAdvance_get : (lfoAdvance s).get r =
    if r = .lfoT then wordOf (keptPhase s)
    else if r = .lfoOut ∧ tableIndex s ≠ 0 then wordOf (keptLevel s)
    else if r = .lfoDir ∧ Crosses s then wordOf (1 - s.read .lfoDir) else s.get r := by
  by_cases h : tableIndex s = 0
  · have hc : ¬ Crosses s := fun hc => hc.1 h
    simp [lfoAdvance, h, hc]
  · by_cases h' : s.read .lfoTh ≤ newLevel s <;> cases r <;> simp [lfoAdvance, levelUpdate_get, Crosses, h, h']

theorem lfoAdvance_written : (lfoAdvance s).written r =
    if r = .lfoT then true else if r = .lfoOut ∧ tableIndex s ≠ 0 then true
    else if r = .lfoDir ∧ Crosses s then true else s.written r := by
  by_cases h : tableIndex s = 0
  · have hc : ¬ Crosses s := fun hc => hc.1 h
    simp [lfoAdvance, h, hc]
  · by_cases h' : s.read .lfoTh ≤ newLevel s <;> cases r <;> simp [lfoAdvance, levelUpdate_written, Crosses, h, h']

/-- All a step does to the registers (R150). -/
theorem lfoStep_get : (lfoStep s).get r =
    if r = .lfoOut2 then wordOf (folded (lfoAdvance s)) else (lfoAdvance s).get r := by
  simp only [lfoStep, State.get_put]

theorem lfoStep_written : (lfoStep s).written r = if r = .lfoOut2 then true else (lfoAdvance s).written r := by
  simp only [lfoStep, State.written_put]

/-- A register the LFO does not own keeps its word and its validity. -/
theorem lfoStep_frame (h : r ∉ [Reg.lfoT, .lfoOut, .lfoDir, .lfoOut2]) :
    (lfoStep s).get r = s.get r ∧ (lfoStep s).written r = s.written r := by
  simp only [List.mem_cons, List.not_mem_nil, or_false, not_or] at h
  simp [lfoStep_get, lfoStep_written, lfoAdvance_get, lfoAdvance_written, h]

/-- A step reads the LFO's registers alone. -/
theorem lfoStep_congr {s s' : State} (h : ∀ r, s.get r = s'.get r) (r : Reg) :
    (lfoStep s).get r = (lfoStep s').get r := by
  have hr : ∀ r, s.read r = s'.read r := fun r => by simp only [State.read, h]
  have hp : phase s = phase s' := by simp only [phase, h]
  have hi : tableIndex s = tableIndex s' := by simp only [tableIndex, hp]
  have hn : newLevel s = newLevel s' := by simp only [newLevel, hr, hi]
  have ha : ∀ r, (lfoAdvance s).get r = (lfoAdvance s').get r := fun r => by
    simp only [lfoAdvance_get, keptPhase, keptLevel, Crosses, hp, hi, hn, hr, h]
  have har : ∀ r, (lfoAdvance s).read r = (lfoAdvance s').read r := fun r => by simp only [State.read, ha]
  simp only [lfoStep_get, folded, har, ha]

/-! ## Phase and index (R151, R152, R158) -/

theorem phase_lt : phase s < 1073741824 := Nat.mod_lt _ (by decide)

theorem tableIndex_le : tableIndex s ≤ 255 := by
  have := phase_lt s
  simp only [tableIndex, TABLE_STEP]; omega

theorem phase_eq : (phase s : Int) = (s.read .lfoT + s.read .lfoDt) % 1073741824 := by
  simp only [phase, State.read, TIMER_MAX]; omega

theorem keptPhase_lt : keptPhase s < 4194304 := by
  have := phase_lt s
  by_cases h : tableIndex s = 0 <;> simp only [keptPhase, h, if_true, if_false] <;>
    simp only [tableIndex, TABLE_STEP] at h ⊢ <;> omega

/-- The phase of a step is the table steps it consumes and the phase it keeps (R157). -/
theorem phase_split : 4194304 * tableIndex s + keptPhase s = phase s := by
  by_cases h : tableIndex s = 0 <;> simp only [keptPhase, h, if_true, if_false] <;>
    simp only [tableIndex, TABLE_STEP] at h ⊢ <;> omega

/-! ## The level (R154) -/

/-- Every entry an update reads lies between the last and the second (R43, R154). -/
theorem lfoTable_range : ∀ idx < 256, 1 ≤ idx → 32857 ≤ lfoTable idx ∧ lfoTable idx ≤ 65359 := by decide +kernel

theorem approach_eq (level : Int) (idx : Nat) :
    approach level idx = 65536 - (65536 - level) * (lfoTable idx : Int) / 65536 := by
  simp [approach]

end Sys2Proof.Machine
end

