-- ==== Sys2Proof/Laws/Limiter.lean ====
section
/-! SUPPORT. The limiter by its two regions (R180). -/

namespace Sys2Proof.Machine

variable (cfg : Config) (k c : Nat) (x : Int)

/-- The linear region. -/
theorem softLimit_linear (h : (x.natAbs : Int) < limThreshold k c) : softLimit cfg k x c = x := by
  simp only [softLimit, if_pos h]

/-- The compressive region. -/
theorem softLimit_compressed (h : limThreshold k c ≤ (x.natAbs : Int)) :
    softLimit cfg k x c =
      if x < 0 then -(limThreshold k c + (cfg.softclip k ((x.natAbs : Int) - limThreshold k c).toNat : Int))
      else limThreshold k c + (cfg.softclip k ((x.natAbs : Int) - limThreshold k c).toNat : Int) := by
  simp only [softLimit, if_neg (not_lt.mpr h)]

end Sys2Proof.Machine
end

