-- ==== Sys2Proof/Laws/Operands.lean ====
section
/-! SUPPORT. The register selects (R30, R110) and the clamped parameter operand (R131). -/

namespace Sys2Proof.Machine

/-- A select names a register exactly when it is that register's own. -/
theorem Reg.ofSel_eq_some (sel : BitVec 8) (r : Reg) : Reg.ofSel sel = some r ↔ sel = r.sel := by
  constructor
  · intro h
    have := List.find?_some (p := fun r' : Reg => r'.sel == sel) h
    exact (beq_iff_eq.1 this).symm
  · rintro rfl
    cases r <;> rfl

/-- The clamped operand always fits the register (R131). -/
theorem clipQ31_range (v : Word) : 0 ≤ clipQ31 v ∧ clipQ31 v < 2147483648 := by
  have h := BitVec.toInt_lt (x := v)
  simp only [clipQ31, s32]
  omega

end Sys2Proof.Machine
end

