-- ==== Sys2Proof/Laws/Exec.lean ====
section
/-! SUPPORT. One lemma per meaning that says everything it does: the next state by its registers, validity, record, port
events and queues. Later proofs cite these and unfold no meaning. -/

namespace Sys2Proof.Machine

variable (s : State)

/-! ## Which function of the state each command answers -/

theorem exec_nop : exec .nop s = .next s := rfl
theorem exec_init : exec .init s = .next (initRegisters ((s.emit .dlInit).emit .dlReset)) := rfl
theorem exec_resume : exec .resume s = .next ((s.emit .dlReset).put .gInputGain 0) := rfl
theorem exec_setTime (v : Word) : exec (.setTime v) s = .next (s.put .pTime (clipQ31 v)) := rfl
theorem exec_setDepth (v : Word) : exec (.setDepth v) s = .next (s.put .pDepth (clipQ31 v)) := rfl
theorem exec_paramIgnored (sel : BitVec 8) (v : Word) : exec (.paramIgnored sel v) s = .next s := rfl
theorem exec_block : exec .block s = .next (deriveBlock Config.hw (s.noteReads blockReads)) := rfl
theorem exec_sample (x : Word) :
    exec (.sample x) s = .next (sampleFrame Config.hw x.toInt (s.noteReads (sampleReads s))) := rfl
theorem exec_reserved (opc : BitVec 8) : exec (.reserved opc) s = .next s := rfl

/-- RDREG, by the register its select names. -/
theorem exec_rdReg (sel : BitVec 8) : exec (.rdReg sel) s =
    .next ((s.noteReads (Reg.ofSel sel).toList).emit (.res (((Reg.ofSel sel).map s.get).getD 0#32))) := by
  cases h : Reg.ofSel sel <;> simp [exec, execRdReg, h, State.noteReads]

/-- Once for all: what each command can do. -/
theorem exec_cases {i : Instr} {s t : State} (h : exec i s = .next t) :
    match i with
    | .nop => t = s
    | .init => t = initRegisters ((s.emit .dlInit).emit .dlReset)
    | .resume => t = (s.emit .dlReset).put .gInputGain 0
    | .setTime v => t = s.put .pTime (clipQ31 v)
    | .setDepth v => t = s.put .pDepth (clipQ31 v)
    | .paramIgnored _ _ => t = s
    | .block => t = deriveBlock Config.hw (s.noteReads blockReads)
    | .sample x => t = sampleFrame Config.hw x.toInt (s.noteReads (sampleReads s))
    | .rdReg sel => t = (s.noteReads (Reg.ofSel sel).toList).emit (.res (((Reg.ofSel sel).map s.get).getD 0#32))
    | .reserved _ => t = s := by
  cases i with
  | rdReg sel =>
    have hr := exec_rdReg s sel
    rw [h] at hr
    exact Host.Outcome.next.inj hr
  | _ => exact (Host.Outcome.next.inj h).symm

/-! ## INIT -/

/-- The word INIT leaves in each register (R241, the last column of R30). -/
def initWord : Reg → Word
  | .lfoDt | .pTimerInc | .pDepth => 0x40000000#32
  | .lfoTh => 32768#32
  | .lfoCenter => 0x4000#32
  | .pTime => 0x20000000#32
  | _ => 0#32

@[simp] theorem initRegisters_get (r : Reg) : (initRegisters s).get r = initWord r := by
  cases r <;> simp [initRegisters, initWord] <;> rfl
@[simp] theorem initRegisters_read (r : Reg) : (initRegisters s).read r = ((initWord r).toNat : Int) := by
  simp only [State.read, initRegisters_get]
@[simp] theorem initRegisters_written (r : Reg) : (initRegisters s).written r = true := by
  cases r <;> simp [initRegisters]
@[simp] theorem initRegisters_uninit : (initRegisters s).uninit = s.uninit := rfl
@[simp] theorem initRegisters_cmdIn : (initRegisters s).cmdIn = s.cmdIn := rfl
@[simp] theorem initRegisters_dlRd : (initRegisters s).dlRd = s.dlRd := rfl
@[simp] theorem initRegisters_events : (initRegisters s).events = s.events := rfl

/-! ## BLOCK -/

@[simp] theorem deriveBlock_get (cfg : Config) (r : Reg) : (deriveBlock cfg s).get r =
    if r = .lfoDt ∨ r = .pTimerInc then cfg.rateInc (s.get .pTime)
    else if r = .pDepthScale then cfg.depthScale (s.get .pDepth) else s.get r := by
  cases r <;> simp [deriveBlock]
@[simp] theorem deriveBlock_read (cfg : Config) (r : Reg) : (deriveBlock cfg s).read r =
    if r = .lfoDt ∨ r = .pTimerInc then ((cfg.rateInc (s.get .pTime)).toNat : Int)
    else if r = .pDepthScale then ((cfg.depthScale (s.get .pDepth)).toNat : Int) else s.read r := by
  cases r <;> simp [State.read]
@[simp] theorem deriveBlock_written (cfg : Config) (r : Reg) : (deriveBlock cfg s).written r =
    if r = .lfoDt ∨ r = .pTimerInc ∨ r = .pDepthScale then true else s.written r := by
  cases r <;> simp [deriveBlock]
@[simp] theorem deriveBlock_uninit (cfg : Config) : (deriveBlock cfg s).uninit = s.uninit := rfl
@[simp] theorem deriveBlock_cmdIn (cfg : Config) : (deriveBlock cfg s).cmdIn = s.cmdIn := rfl
@[simp] theorem deriveBlock_dlRd (cfg : Config) : (deriveBlock cfg s).dlRd = s.dlRd := rfl
@[simp] theorem deriveBlock_events (cfg : Config) : (deriveBlock cfg s).events = s.events := rfl

/-! ## SAMPLE -/

/-- The registers the LFO step of a frame leaves are those of a step from the state the command found. -/
theorem lfoStep_dlOutput_get (reads : List Reg) (r : Reg) :
    (lfoStep (s.noteReads reads).dlOutput).get r = (lfoStep s).get r :=
  lfoStep_congr (s := (s.noteReads reads).dlOutput) (s' := s) (fun _ => rfl) r

@[simp] theorem sampleFrame_get (cfg : Config) (x : Int) (reads : List Reg) (r : Reg) :
    (sampleFrame cfg x (s.noteReads reads)).get r =
      if r = .gInputGain then wordOf (gainNext (s.read .gInputGain)) else (lfoStep s).get r := by
  have hg : (lfoStep s).read .gInputGain = s.read .gInputGain := by
    simp only [State.read, (lfoStep_frame s .gInputGain (by decide)).1]
  have hg' : (lfoStep (s.noteReads reads).dlOutput).read .gInputGain = s.read .gInputGain := by
    rw [← hg]; simp only [State.read, lfoStep_dlOutput_get]
  simp [sampleFrame, lfoStep_dlOutput_get, hg']

@[simp] theorem sampleFrame_read (cfg : Config) (x : Int) (reads : List Reg) (r : Reg) :
    (sampleFrame cfg x (s.noteReads reads)).read r =
      if r = .gInputGain then ((wordOf (gainNext (s.read .gInputGain))).toNat : Int) else (lfoStep s).read r := by
  by_cases h : r = .gInputGain <;> simp only [State.read, sampleFrame_get, h, if_true, if_false]

@[simp] theorem sampleFrame_written (cfg : Config) (x : Int) (reads : List Reg) (r : Reg) :
    (sampleFrame cfg x (s.noteReads reads)).written r = if r = .gInputGain then true else (lfoStep s).written r := by
  have h : (lfoStep (s.noteReads reads).dlOutput).written r = (lfoStep s).written r := by
    simp only [lfoStep_written, lfoAdvance_written, Crosses]; rfl
  simp [sampleFrame, h]

@[simp] theorem sampleFrame_uninit (cfg : Config) (x : Int) : (sampleFrame cfg x s).uninit = s.uninit := by
  simp [sampleFrame]
@[simp] theorem sampleFrame_cmdIn (cfg : Config) (x : Int) : (sampleFrame cfg x s).cmdIn = s.cmdIn := by
  simp [sampleFrame]
@[simp] theorem sampleFrame_dlRd (cfg : Config) (x : Int) : (sampleFrame cfg x s).dlRd = s.dlRd.tail := by
  simp [sampleFrame]

/-- The four port events of a frame, in order, with the values of steps c to g (R210). -/
theorem sampleFrame_events (cfg : Config) (x : Int) (reads : List Reg) :
    (sampleFrame cfg x (s.noteReads reads)).events = s.events ++
      [.dlOutput s.dlAnswer,
       .dlUpdate (wordOf (offset (lfoStep s))),
       .dlInput (wordOf (delayInput cfg x (s.read .gInputGain) s.dlAnswer.toInt)),
       .out (wordOf (outputSample cfg x s.dlAnswer.toInt)) (wordOf (outputSample cfg x s.dlAnswer.toInt))
         (wordOf (outputSample cfg x s.dlAnswer.toInt)) (wordOf (outputSample cfg x s.dlAnswer.toInt))] := by
  have hr : ∀ r, (lfoStep (s.noteReads reads).dlOutput).read r = (lfoStep s).read r := fun r => by
    simp only [State.read, lfoStep_dlOutput_get]
  have hg : (lfoStep s).read .gInputGain = s.read .gInputGain := by
    simp only [State.read, (lfoStep_frame s .gInputGain (by decide)).1]
  have ho : offset (lfoStep (s.noteReads reads).dlOutput) = offset (lfoStep s) := by simp only [offset, hr]
  simp [sampleFrame, s32, ho, hr, hg]

/-! ## The step -/

/-- A step that finds a whole command executes it; otherwise nothing happens. -/
theorem step_cases {t : State} (h : step s = .next t) :
    t = s ∨ ∃ (i : Instr) (rest : List Word), decode s.cmdIn = .ok (i, rest) ∧ exec i { s with cmdIn := rest } = .next t := by
  unfold step fetch at h
  split at h
  · rename_i i u hf
    split at hf
    · rename_i j rest hd
      simp only [Option.some.injEq, Prod.mk.injEq] at hf
      obtain ⟨rfl, rfl⟩ := hf
      exact .inr ⟨_, _, hd, h⟩
    · cases hf
  · exact .inl (by simpa using h.symm)

/-- An invariant of every command that does not look at `CMD_IN` is an invariant of every step. -/
theorem step_induct {P : State → Prop} (hcmd : ∀ (s : State) (ws : List Word), P s → P { s with cmdIn := ws })
    (hexec : ∀ (i : Instr) (s t : State), P s → exec i s = .next t → P t) {t : State} (hs : P s) (h : step s = .next t) :
    P t := by
  obtain rfl | ⟨i, rest, -, he⟩ := step_cases s h
  · exact hs
  · exact hexec i _ t (hcmd s rest hs) he

end Sys2Proof.Machine
end

