-- ==== Sys2Proof/Laws/PerInstr.lean ====
section
/-! SUPPORT. One law per constructor of `Instr`: how many words its encoding has (30_encoding.md R102, R104). -/

namespace Sys2Proof.Laws.EncodedLength

/-- A command's encoding is its command word, followed by one operand word exactly when its opcode is PARAM's or SAMPLE's. -/
def Statement (i : Instr) : Prop :=
  i.wellFormed = true → ∃ w : Word, (encode i).head? = some w ∧
    (encode i).length = if takesOperand (opcOf w) then 2 else 1

theorem nop : Statement .nop := fun _ => ⟨_, rfl, rfl⟩
theorem init : Statement .init := fun _ => ⟨_, rfl, rfl⟩
theorem resume : Statement .resume := fun _ => ⟨_, rfl, rfl⟩
theorem setTime (v : Word) : Statement (.setTime v) := fun _ => ⟨_, rfl, rfl⟩
theorem setDepth (v : Word) : Statement (.setDepth v) := fun _ => ⟨_, rfl, rfl⟩
theorem paramIgnored (sel : BitVec 8) (v : Word) : Statement (.paramIgnored sel v) := fun _ =>
  ⟨_, rfl, by rw [opcOf_commandWord]; rfl⟩
theorem block : Statement .block := fun _ => ⟨_, rfl, rfl⟩
theorem sample (x : Word) : Statement (.sample x) := fun _ => ⟨_, rfl, rfl⟩
theorem rdReg (sel : BitVec 8) : Statement (.rdReg sel) := fun _ => ⟨_, rfl, by rw [opcOf_commandWord]; rfl⟩

/-- A reserved opcode is none of those that take an operand. -/
theorem reserved (opc : BitVec 8) : Statement (.reserved opc) := fun h =>
  ⟨_, rfl, by
    rw [opcOf_commandWord]
    have h7 : 7 ≤ opc.toNat := of_decide_eq_true h
    have : takesOperand opc = false := by
      rw [Bool.eq_false_iff, ne_eq, takesOperand_iff]
      rintro (rfl | rfl) <;> simp at h7
    simp [this, encode]⟩

end Sys2Proof.Laws.EncodedLength
end

