-- ==== Sys2Proof/Laws/Runs.lean ====
section
/-! SUPPORT. The registers a command reads, as Safety.lean spells them out and as the meanings note them (R264), and one
command of a run (R301). -/

namespace Sys2Proof.Machine

variable (s : State)

/-- The index the lines of R150 form, over integers. -/
theorem tableIndex_eq : (s.read .lfoT + s.read .lfoDt) % 1073741824 / 4194304 = (tableIndex s : Int) := by
  rw [← phase_eq]; rfl

/-- What SAMPLE's meaning notes is what its pseudocode reads. -/
theorem readsOf_sample (x : Word) : readsOf s (.sample x) = sampleReads s := by
  simp only [readsOf, sampleReads, lfoReads, tableIndex_eq, Int.natCast_eq_zero, FALLING]
  by_cases h : tableIndex s = 0
  · by_cases hd : s.read .lfoDir = 1 <;> simp only [h, hd, if_true, if_false] <;> rfl
  · simp only [h, if_false]

/-- All that one command of a run can do: end as its next state ends. -/
theorem runCommand_eq {i : Instr} {s t : State} (h : exec i s = .next t) : runCommand i s = endOfRun t := by
  simp only [runCommand, h]

/-- A state with a record has no end but the fault (R264). -/
theorem endOfRun_of_record {s : State} {r : Reg} (h : s.uninit = some r) : endOfRun s = .fault (.uninit r) := by
  simp only [endOfRun, h]

/-- A state without a record is its own end. -/
theorem endOfRun_of_none {s : State} (h : s.uninit = none) : endOfRun s = .next s := by
  simp only [endOfRun, h]

end Sys2Proof.Machine
end

