-- ==== Sys2Proof/Tests/Slice0.lean ====
section
/-! SUPPORT. The model's own tests: expected results are those of spec/95_test_vectors.md (the row is named), and one witness
for the hypotheses of each statement that has some. -/

namespace Sys2Proof.Tests

open Sys2Proof.Machine

set_option Elab.async false -- each concurrent kernel evaluation would hold a thread of its own

/-! ## Well-formedness: one ill-formed term per check -/

theorem test_illformed_paramIgnored_time : (Instr.paramIgnored 0x00#8 5#32).wellFormed = false := by decide
theorem test_illformed_paramIgnored_depth : (Instr.paramIgnored 0x01#8 5#32).wellFormed = false := by decide
theorem test_illformed_reserved : (Instr.reserved 0x06#8).wellFormed = false := by decide
theorem test_wellformed_boundaries :
    (Instr.paramIgnored 0x02#8 5#32).wellFormed = true ∧ (Instr.paramIgnored 0xFF#8 5#32).wellFormed = true ∧
    (Instr.reserved 0x07#8).wellFormed = true ∧ (Instr.reserved 0xFF#8).wellFormed = true := by decide

/-! ## Decoding: words written out from the spec (rows W1 to W15, R115) -/

theorem test_decode_nop : decode [0x00000000#32] = .ok (.nop, []) := by decide
theorem test_decode_init : decode [0x01FFFFFF#32] = .ok (.init, []) := by decide
theorem test_decode_resume : decode [0x02000000#32] = .ok (.resume, []) := by decide
theorem test_decode_setTime : decode [0x03000000#32, 0x20000000#32] = .ok (.setTime 0x20000000#32, []) := by decide
theorem test_decode_setDepth : decode [0x03ABCD01#32, 0x40000000#32] = .ok (.setDepth 0x40000000#32, []) := by decide
theorem test_decode_paramIgnored :
    decode [0x03000002#32, 0x7FFFFFFF#32] = .ok (.paramIgnored 0x02#8 0x7FFFFFFF#32, []) := by decide
theorem test_decode_block : decode [0x0400FF00#32] = .ok (.block, []) := by decide
/-- W15: a word after SAMPLE is its operand, whatever it looks like. -/
theorem test_decode_sample : decode [0x05000000#32, 0x04000000#32] = .ok (.sample 0x04000000#32, []) := by decide
theorem test_decode_rdReg : decode [0x06000020#32] = .ok (.rdReg 0x20#8, []) := by decide
theorem test_decode_reserved : decode [0x07000000#32, 0xFF123456#32] = .ok (.reserved 0x07#8, [0xFF123456#32]) := by decide
theorem test_decode_waits :
    decode [] = .error .noCommand ∧ decode [0x05000000#32] = .error (.noOperand 0x05#8) := by decide
/-- The opcode table's numbering: the operand word is bits 63:32; a row given no operand bits has an operand of zeros. -/
theorem test_decodeTableWord :
    decodeTableWord 64 0x0100000005000000 = some (.sample 0x01000000#32) ∧
    decodeTableWord 32 0x05000000 = some (.sample 0#32) ∧ decodeTableWord 32 0x7F000000 = some (.reserved 0x7F#8) := by decide

/-! ## States for the tests -/

/-- What INIT leaves right after power-on. -/
def afterInit : State := initRegisters State.reset

/-- The registers the LFO reads, as in the rows of section 2.1. -/
def lfoCase (t dt out dir : Int) : State :=
  (((afterInit.put .lfoT t).put .lfoDt dt).put .lfoOut out).put .lfoDir dir

/-- The four columns after a step in section 2.1. -/
def lfoView (s : State) : Int × Int × Int × Int := (s.read .lfoT, s.read .lfoOut, s.read .lfoDir, s.read .lfoOut2)

/-- The start of the rows of section 6.2 (BLOCK's reference values), with the gain and the answer of the row. -/
def frameStart (wet g : Int) : State :=
  { ((afterInit.put .lfoDt 86430).put .pDepthScale 46341).put .gInputGain g with dlRd := [wordOf wet] }

/-- `off`, `d`, `y` and the gain after a frame of section 6.2. -/
def frameView (x : Int) (s : State) : List Event × Int :=
  let t := sampleFrame (Config.reference FS) x s
  (t.events.drop 1, t.read .gInputGain)

/-- The events of a row of section 6.2. -/
def frameEvents (off d y : Int) : List Event :=
  [.dlUpdate (wordOf off), .dlInput (wordOf d), .out (wordOf y) (wordOf y) (wordOf y) (wordOf y)]

/-- The registers and the last event a command leaves, for a command that answers a next state. -/
def lastEvent (o : Host.Outcome State Fault Refusal) : Option Event :=
  match o with
  | .next t => t.events.getLast?
  | _ => none

/-- The word a register holds after a command that answers a next state. -/
def regAfter (o : Host.Outcome State Fault Refusal) (r : Reg) : Option Word :=
  match o with
  | .next t => some (t.get r)
  | _ => none

/-! ## Shared operations -/

/-- Rows L1, L2, L3, L4. -/
theorem test_lfo_step_moves :
    lfoView (lfoStep (lfoCase 0 4194304 0 0)) = (0, 177, 0, 177) ∧
    lfoView (lfoStep (lfoCase 0 86430 0 0)) = (86430, 0, 0, 0) ∧
    lfoView (lfoStep (lfoCase 4148640 86430 0 0)) = (40766, 177, 0, 177) ∧
    lfoView (lfoStep (lfoCase 0 12582917 0 0)) = (5, 530, 0, 530) := by decide +kernel

/-- Rows L5, L6, L9, L15: the extreme increments. -/
theorem test_lfo_step_extremes :
    lfoView (lfoStep (lfoCase 0 1073741823 0 0)) = (4194303, 32679, 0, 32679) ∧
    lfoView (lfoStep (lfoCase 4194303 1073741823 32679 0)) = (4194302, 32679, 0, 32679) ∧
    lfoView (lfoStep (lfoCase 4194302 1 0 0)) = (4194303, 0, 0, 0) ∧
    lfoView (lfoStep (lfoCase 12345 1073741824 1000 1)) = (12345, 1000, 1, 31768) := by decide +kernel

/-- Rows L7, L8, L11, L12, L14: crossings in both directions. -/
theorem test_lfo_step_crossings :
    lfoView (lfoStep (lfoCase 0 1069547520 32679 0)) = (0, 16295, 1, 16473) ∧
    lfoView (lfoStep (lfoCase 0 1069547520 16295 1)) = (0, 8081, 0, 8081) ∧
    lfoView (lfoStep (lfoCase 0 4194304 32700 0)) = (0, 21, 1, 32747) ∧
    lfoView (lfoStep (lfoCase 0 4194304 32700 1)) = (0, 21, 0, 21) ∧
    lfoView (lfoStep (lfoCase 0 1069547520 32767 0)) = (0, 16339, 1, 16429) := by decide +kernel

/-- Section 4, both instances, at and around both thresholds and at both ends. -/
theorem test_limiter :
    [0, -1, 838860, 838861, 838862, 5033164, 5033165, 5033166, -8388608, 16777216, 33554432, 2147483647, -2147483648].map
      (fun x => (limFb (Config.reference FS) x, limWet (Config.reference FS) x)) =
    [(0, 0), (-1, -1), (838860, 838860), (838861, 838861), (838862, 838861), (5033164, 4159351), (5033165, 4159351),
     (5033165, 4159352), (-7778527, -5961903), (11639193, 8808038), (14905911, 11556030), (20026986, 16659749),
     (-20026986, -16659749)] := by decide +kernel

/-- Rows G1 to G7. -/
theorem test_gain_step :
    [0, 1048576, 3817216, 16776858, 16776880, 16776879, 16777216].map gainNext =
    [1048576, 2031616, 4627216, 16776880, 16777216, 16776900, 16777216] := by decide +kernel

/-- Section 6.1. -/
theorem test_offset :
    [(0, 46341), (1, 46341), (16384, 46341), (32767, 46341), (32768, 46341), (0, 16777216), (32768, 16777216), (32768, 8192),
      (123, 0)].map (fun p : Int × Int => offset ((afterInit.put .lfoOut2 p.1).put .pDepthScale p.2)) =
    [45, 45, 0, -46, -46, 16384, -16384, -8, 0] := by decide +kernel

/-! ## One step of each command -/

theorem test_nop (s : State) : step { s with cmdIn := [0x00123456#32, 7#32] } = .next { s with cmdIn := [7#32] } := rfl

/-- W14: one word, no effect. -/
theorem test_reserved (s : State) : step { s with cmdIn := [0xFF123456#32, 7#32] } = .next { s with cmdIn := [7#32] } := rfl

/-- Row V7: two words, no effect. -/
theorem test_paramIgnored (s : State) :
    step { s with cmdIn := [0x03000007#32, 0x12345678#32, 7#32] } = .next { s with cmdIn := [7#32] } := rfl

/-- Rows V1 to V4. -/
theorem test_setTime :
    [0x7FFFFFFF#32, 0x80000000#32, 0xC0000000#32, 0#32].map (fun v => regAfter (exec (.setTime v) afterInit) .pTime) =
    [some 0x7FFFFFFF#32, some 0#32, some 0#32, some 0#32] := by decide +kernel

/-- Rows V5, V6. -/
theorem test_setDepth :
    [0xFFFFFFFF#32, 1#32].map (fun v => regAfter (exec (.setDepth v) afterInit) .pDepth) =
    [some 0#32, some 1#32] := by decide +kernel

/-- BLOCK reads the parameters' registers; the values are the configuration's (R138). -/
theorem test_block : regAfter (exec .block afterInit) .lfoDt = some (Config.hw.rateInc 0x20000000#32) ∧
    regAfter (exec .block afterInit) .pDepthScale = some (Config.hw.depthScale 0x40000000#32) := by
  simp [regAfter, exec_block, afterInit, initWord]

/-- R183 at a knee of 0.1 and an excess of 1.0, by hand: `2^24 * 15099494 / (2^24 + 15099494)`. -/
theorem test_softclip_reference : Config.softclipRef 1677722 16777216 = 7947102 := by decide +kernel

/-- The RDREG table of section 7: every select after INIT. -/
theorem test_rdReg :
    [0x00#8, 0x01#8, 0x02#8, 0x03#8, 0x04#8, 0x05#8, 0x06#8, 0x10#8, 0x11#8, 0x12#8, 0x13#8, 0x20#8, 0x07#8, 0x14#8, 0x21#8,
      0xFF#8].map (fun sel => lastEvent (exec (.rdReg sel) afterInit)) =
    [0#32, 0x40000000#32, 0#32, 0x8000#32, 0#32, 0#32, 0x4000#32, 0x20000000#32, 0x40000000#32, 0x40000000#32, 0#32, 0#32,
      0#32, 0#32, 0#32, 0#32].map (fun w => some (Event.res w)) := by decide +kernel

/-- RESUME keeps the LFO (program D). -/
theorem test_resume : regAfter (exec .resume (frameStart 0 16777216)) .gInputGain = some 0#32 ∧
    regAfter (exec .resume (frameStart 0 16777216)) .lfoDt = some 86430#32 := by decide +kernel

/-- INIT is the first command a block can take after power-on (W2); its registers are those of R241. -/
theorem test_init_from_power_on : (match step (State.reset.withFetchWord 32 0x01000000) with
    | .next t => decide (t.regs = ⟨0#32, 0x40000000#32, 0#32, 0x8000#32, 0#32, 0#32, 0x4000#32, 0x20000000#32, 0x40000000#32,
        0x40000000#32, 0#32, 0#32⟩ ∧ t.events = [.dlInit, .dlReset])
    | _ => false) = true := by decide +kernel

/-- Row P1, and row Z with the gain before its ramp update. -/
theorem test_sample_frame :
    frameView 8388608 (frameStart 16777216 3817216) = (frameEvents 45 12270166 8598323, 4627216) ∧
    frameView 0 (frameStart 0 0) = (frameEvents 45 0 0, 1048576) := by decide +kernel

/-- Rows E1 to E4: saturation at both ends and its absence. -/
theorem test_sample_extremes :
    frameView 2147483647 (frameStart 2147483647 16777216) = (frameEvents 45 2147483647 1082071697, 16777216) ∧
    frameView (-2147483648) (frameStart (-2147483648) 16777216) = (frameEvents 45 (-2147483648) (-1082071699), 16777216) ∧
    frameView (-2147483648) (frameStart 0 16777216) = (frameEvents 45 (-2147483648) (-1073741824), 16777216) ∧
    frameView 2147483647 (frameStart (-2147483648) 16777216) = (frameEvents 45 2129655023 1065411948, 16777216) := by
  decide +kernel

/-! ## Witnesses for the statements' hypotheses -/

/-- A reachable state in the middle of a run: a falling leg, written registers, an answer ready. -/
def midRun : State := { (lfoCase 4148640 86430 1000 1).put .lfoOut2 31768 with dlRd := [0#32] }

/-- `StepRunsDecodedCommand`: a whole command with words behind it, and both ways to wait. -/
theorem test_witness_StepRunsDecodedCommand :
    decode { afterInit with cmdIn := [0x05000000#32, 9#32, 1#32] }.cmdIn = .ok (.sample 9#32, [1#32]) ∧
    decode { afterInit with cmdIn := [0x03000000#32] }.cmdIn = .error (.noOperand 0x03#8) ∧
    decode afterInit.cmdIn = .error .noCommand := by decide +kernel

/-- `DecodeOfEncode`: a command with two operand fields is well formed. -/
theorem test_witness_DecodeOfEncode : (Instr.paramIgnored 0xFF#8 0xFFFFFFFF#32).wellFormed = true ∧
    decode (encode (.paramIgnored 0xFF#8 0xFFFFFFFF#32) ++ [3#32]) =
      .ok (.paramIgnored 0xFF#8 0xFFFFFFFF#32, [3#32]) := by decide

/-- `LengthFromOpcodeAlone`, `DecoderFollowsOpcodeTable`: opcodes on both sides of each that takes an operand. -/
theorem test_witness_LengthFromOpcodeAlone :
    [0x02#8, 0x03#8, 0x04#8, 0x05#8, 0x06#8].map takesOperand = [false, true, false, true, false] := by decide

/-- `IgnoredBitsDoNotMatter`: an opcode that is neither PARAM nor RDREG, both selects ignored. -/
theorem test_witness_IgnoredBitsDoNotMatter : (0x04#8 : BitVec 8) ≠ 0x03#8 ∧ (0x04#8 : BitVec 8) ≠ 0x06#8 ∧
    decode [commandWord 0x04#8 0x00FF#16 0x00#8] = decode [commandWord 0x04#8 0#16 0x33#8] := by decide

/-- `TransportCarriesWords`: R76, least significant byte first. -/
theorem test_bytesOfWord : bytesOfWord 0x01234567#32 = [0x67#8, 0x45#8, 0x23#8, 0x01#8] := by decide

/-- `AssemblerTakesExactlyTheRange`: operands at the ends of the range and just past them. -/
theorem test_witness_AssemblerTakesExactlyTheRange :
    assemble (.sample (.dec (-2147483648))) = .ok [0x05000000#32, 0x80000000#32] ∧
    assemble (.setTime (.dec 2147483647)) = .ok [0x03000000#32, 0x7FFFFFFF#32] ∧
    assemble (.sample (.dec 2147483648)) = .error .operandRange ∧
    assemble (.setDepth (.hex 4294967295)) = .ok [0x03000001#32, 0xFFFFFFFF#32] ∧
    assemble (.param (.dec 7) (.hex 4294967296)) = .error .operandRange := by decide +kernel

/-- `AssemblerTakesExactlyTheRange`: indices, selects and names. -/
theorem test_witness_AssemblerSelectors :
    assemble (.param (.dec 7) (.hex 0x12345678)) = .ok [0x03000007#32, 0x12345678#32] ∧
    assemble (.param (.dec (-1)) (.hex 4294967296)) = .error .selectorRange ∧
    assemble (.rdReg (.number (.hex 255))) = .ok [0x060000FF#32] ∧
    assemble (.rdReg (.number (.dec 256))) = .error .selectorRange ∧
    assemble (.rdReg (.name .lfoOut2)) = .ok [0x06000005#32] := by decide +kernel

/-- `IgnoredParamConsumesOperandOnly`, `ReservedOpcodeIsNop`: the first and last values of the fields they range over. -/
theorem test_witness_ignored_fields : 2 ≤ (0x02#8 : BitVec 8).toNat ∧ 2 ≤ (0xFF#8 : BitVec 8).toNat ∧
    7 ≤ (0x07#8 : BitVec 8).toNat ∧ 7 ≤ (0xFF#8 : BitVec 8).toNat := by decide

/-- `BlockDerivesParameters`: both parameters written, and a second BLOCK. -/
theorem test_witness_BlockDerivesParameters : afterInit.written .pTime = true ∧ afterInit.written .pDepth = true ∧
    ∃ t u : State, exec .block afterInit = .next t ∧ exec .block t = .next u := ⟨rfl, rfl, _, _, rfl, rfl⟩

/-- `BlockRespectsDerivationContracts`: two states in order, at both ends of the parameters. -/
theorem test_witness_BlockRespectsDerivationContracts :
    ∃ s s' t t' : State, exec .block s = .next t ∧ exec .block s' = .next t' ∧
      s.read .pTime ≤ s'.read .pTime ∧ s.read .pTime = 0 ∧ s'.read .pTime = 2147483647 ∧
      s.read .pDepth ≤ s'.read .pDepth ∧ s.read .pDepth = 0 ∧ s'.read .pDepth = 2147483647 :=
  ⟨(afterInit.put .pTime 0).put .pDepth 0, (afterInit.put .pTime 2147483647).put .pDepth 2147483647, _, _, rfl, rfl,
    by decide +kernel⟩

/-- The two equal-parameter clauses of `BlockRespectsDerivationContracts`. -/
theorem test_witness_BlockRespectsDerivationContracts_equal : ∃ t : State, exec .block afterInit = .next t ∧
    afterInit.read .pTime = afterInit.read .pTime ∧ afterInit.read .pTime < 2147483648 ∧ afterInit.read .pDepth < 2147483648 :=
  ⟨_, rfl, rfl, by decide +kernel, by decide +kernel⟩

/-- `ParameterChangeWaitsForBlock`: either parameter, then a SAMPLE. -/
theorem test_witness_ParameterChangeWaitsForBlock : ∃ p q t u v : State,
    exec (.setTime 5#32) midRun = .next p ∧ exec (.setDepth 5#32) midRun = .next q ∧
    exec (.sample 1#32) midRun = .next t ∧ exec (.sample 1#32) p = .next u ∧ exec (.sample 1#32) q = .next v :=
  ⟨_, _, _, _, _, rfl, rfl, rfl, rfl, rfl⟩

/-- `RdregReturnsSelectedRegister`: an assigned select and a reserved one, and a second RDREG. -/
theorem test_witness_RdregReturnsSelectedRegister : (0x20#8, Reg.gInputGain) ∈ selectMap ∧
    (∀ p ∈ selectMap, p.1 ≠ 0x07#8) ∧ (∃ t u : State, exec (.rdReg 0x20#8) afterInit = .next t ∧
      exec (.rdReg 0x20#8) t = .next u) ∧ afterInit.written .gInputGain = true :=
  ⟨by decide, by decide, ⟨_, _, rfl, rfl⟩, rfl⟩

/-- `InitThenResumeIsInit`: a second INIT and a second RESUME. -/
theorem test_witness_InitThenResumeIsInit : ∃ t u v w : State, exec .init midRun = .next t ∧ exec .resume t = .next u ∧
    exec .init t = .next v ∧ exec .resume u = .next w := ⟨_, _, _, _, rfl, rfl, rfl, rfl⟩

/-- `SampleIssuesPortEvents`: an answer ready. -/
theorem test_witness_SampleIssuesPortEvents : midRun.dlRd = 0#32 :: [] := rfl

theorem test_afterInit_allInRange : afterInit.AllInRange := by intro r; cases r <;> decide +kernel
theorem test_midRun_allInRange : midRun.AllInRange := by intro r; cases r <;> decide +kernel

/-- `SampleOffsetBounded`, `SampleBeforeBlockIsStill`: ranges, a depth scale of 0 and the increment INIT leaves. -/
theorem test_witness_SampleOffsetBounded : afterInit.AllInRange ∧ afterInit.read .pDepthScale = 0 ∧
    afterInit.read .lfoDt = 1073741824 ∧ ((afterInit.put .pDepthScale 16777216).put .lfoOut2 32768).AllInRange :=
  ⟨test_afterInit_allInRange, by decide +kernel, by decide +kernel, by intro r; cases r <;> decide +kernel⟩

/-- The offset a SAMPLE sends from a state. -/
def sentOffset (s : State) : Option Event :=
  match exec (.sample 0#32) s with
  | .next t => t.events[1]?
  | _ => none

/-- `SampleOffsetBounded`, section 6.1: SAMPLEs with a scale of 46341 that leave a fold of 1 and of 32767. -/
theorem test_witness_SampleOffsetBounded_asymmetric :
    (∀ r : Reg, r.inRange (((lfoCase 0 86430 1 0).put .pDepthScale 46341).get r) = true ∧
      r.inRange (((lfoCase 0 86430 32767 0).put .pDepthScale 46341).get r) = true) ∧
    sentOffset ((lfoCase 0 86430 1 0).put .pDepthScale 46341) = some (.dlUpdate (wordOf 45)) ∧
    sentOffset ((lfoCase 0 86430 32767 0).put .pDepthScale 46341) = some (.dlUpdate (wordOf (-46))) :=
  ⟨by intro r; cases r <;> decide +kernel, by decide +kernel, by decide +kernel⟩

/-- The linear limiter is the identity for every configuration: what the witnesses below rest on. -/
theorem limFb_hw_linear {x : Int} (h : (x.natAbs : Int) < limThreshold K_FB C_FB) : limFb Config.hw x = x :=
  softLimit_linear Config.hw K_FB C_FB x h

/-- `DelayInputSaturates`: a full gain, and a sum in the range, above it and below it. -/
theorem test_witness_DelayInputSaturates : (frameStart 0 16777216).read .gInputGain ≤ 16777216 ∧
    2147483647 * 16777216 / 16777216 + limFb Config.hw 0 * 14935581 / 16777216 = 2147483647 ∧
    2147483647 < 2147483647 * 16777216 / 16777216 + limFb Config.hw 2 * 14935581 / 16777216 ∧
    -2147483648 * 16777216 / 16777216 + limFb Config.hw (-1) * 14935581 / 16777216 < -2147483648 := by
  refine ⟨by decide +kernel, ?_, ?_, ?_⟩ <;> rw [limFb_hw_linear (by decide)] <;> decide

/-- `OutputIgnoresRegisters`: two states with different registers and the same answer. -/
theorem test_witness_OutputIgnoresRegisters : (frameStart 77 0).dlAnswer = (frameStart 77 16777216).dlAnswer ∧
    (frameStart 77 0).read .gInputGain ≠ (frameStart 77 16777216).read .gInputGain ∧
    ∃ t t' : State, exec (.sample 3#32) (frameStart 77 0) = .next t ∧
      exec (.sample 3#32) (frameStart 77 16777216) = .next t' :=
  ⟨by decide +kernel, by decide +kernel, _, _, rfl, rfl⟩

/-- `ZeroInZeroOut`, and the two answers of `FirstFrameAfterResume`. -/
theorem test_witness_ZeroInZeroOut : midRun.dlAnswer = 0#32 ∧ (∃ t : State, exec .resume midRun = .next t ∧ t.dlAnswer = 0#32) ∧
    (∃ t : State, exec .resume (frameStart 1 0) = .next t ∧ t.dlAnswer = 1#32) :=
  ⟨rfl, ⟨_, rfl, rfl⟩, _, rfl, by decide +kernel⟩

/-- `SampleStepsLfo`: in range with an index of 0, with a nonzero index below the threshold, and with a crossing. -/
theorem test_witness_SampleStepsLfo :
    ((lfoCase 0 86430 0 0).AllInRange ∧ tableIndex (lfoCase 0 86430 0 0) = 0) ∧
    ((lfoCase 0 4194304 0 0).AllInRange ∧ tableIndex (lfoCase 0 4194304 0 0) = 1 ∧ newLevel (lfoCase 0 4194304 0 0) < 32768) ∧
    ((lfoCase 0 1069547520 32767 0).AllInRange ∧ tableIndex (lfoCase 0 1069547520 32767 0) = 255 ∧
      32768 ≤ newLevel (lfoCase 0 1069547520 32767 0)) := by
  refine ⟨⟨?_, by decide +kernel⟩, ⟨?_, by decide +kernel⟩, ⟨?_, by decide +kernel⟩⟩ <;> intro r <;> cases r <;> decide +kernel

/-- `SampleFrameCondition`, `NoUninitAfterInit`, `ProcessDrivesOneOutputPerFrame`: INIT leaves every register written. -/
theorem test_witness_Initialised : afterInit.Initialised := ⟨rfl, by intro r; cases r <;> decide +kernel⟩

/-- `NoUninitAfterInit`: an INIT and a step. -/
theorem test_witness_NoUninitAfterInit : State.reset.uninit = none ∧ (∃ t : State, exec .init State.reset = .next t) ∧
    ∃ t : State, step { afterInit with cmdIn := [0x05000000#32, 9#32] } = .next t := ⟨rfl, ⟨_, rfl⟩, _, rfl⟩

/-- `LevelStrictlyRises`: the ends of both ranges; the last reaches the largest overshoot (R155). -/
theorem test_witness_LevelStrictlyRises :
    approach 0 1 = 177 ∧ approach 0 255 = 32679 ∧ approach 32767 1 = 32856 ∧ approach 32767 255 = 49107 := by decide +kernel

/-- `PhaseNeverStalls`: in range with the largest increment of R134, and with 2^30. -/
theorem test_witness_PhaseNeverStalls : (lfoCase 4194303 1069547520 0 0).AllInRange ∧
    (lfoCase 4194303 1069547520 0 0).read .lfoDt ≤ 1073741824 - 4194304 ∧
    (lfoCase 12345 1073741824 1000 1).AllInRange ∧ (lfoCase 12345 1073741824 1000 1).read .lfoDt = 1073741824 := by
  refine ⟨?_, by decide +kernel, ?_, by decide +kernel⟩ <;> intro r <;> cases r <;> decide +kernel

/-- `PhaseAdvancesAfterBlock`: a BLOCK from a state in range; states with the smallest and the largest increment, and both a
SAMPLE and another command from them. -/
theorem test_witness_PhaseAdvancesAfterBlock : afterInit.AllInRange ∧ (∃ t : State, exec .block afterInit = .next t) ∧
    (lfoCase 4194303 1 0 0).RateSet ∧ (lfoCase 4194303 1069547520 0 0).RateSet ∧
    (∃ t : State, exec (.sample 1#32) (lfoCase 4194303 1 0 0) = .next t) ∧
    (∃ t : State, exec .resume (lfoCase 4194303 1 0 0) = .next t) :=
  ⟨test_afterInit_allInRange, ⟨_, rfl⟩, ⟨by intro r; cases r <;> decide +kernel, by decide +kernel⟩,
    ⟨by intro r; cases r <;> decide +kernel, by decide +kernel⟩, ⟨_, rfl⟩, _, rfl⟩

/-- `DirectionChangesOnlyAtCrossing`: both sides of its equivalences, and a command that is no SAMPLE and no INIT. -/
theorem test_witness_DirectionChangesOnlyAtCrossing : midRun.AllInRange ∧ (lfoCase 0 4194304 32700 0).AllInRange ∧
    (tableIndex (lfoCase 0 4194304 32700 0) ≠ 0 ∧
      (lfoCase 0 4194304 32700 0).read .lfoTh ≤ newLevel (lfoCase 0 4194304 32700 0)) ∧
    ¬(midRun.read .lfoTh ≤ newLevel midRun) ∧
    (∃ t : State, exec (.sample 1#32) midRun = .next t) ∧ (∃ t : State, exec .block midRun = .next t) := by
  refine ⟨test_midRun_allInRange, ?_, by decide +kernel, by decide +kernel, ⟨_, rfl⟩, _, rfl⟩
  intro r; cases r <;> decide +kernel

/-- `LfoLawsHoldAfterEveryCommand`: a state that keeps the laws and whose next SAMPLE flips the direction. -/
theorem test_witness_LfoLawsHoldAfterEveryCommand : (lfoCase 0 4194304 32700 0).LfoLaws ∧
    (∃ t : State, exec .init midRun = .next t) ∧
    ∃ t : State, exec (.sample 0#32) (lfoCase 0 4194304 32700 0) = .next t ∧
      t.read .lfoDir ≠ (lfoCase 0 4194304 32700 0).read .lfoDir :=
  ⟨by unfold State.LfoLaws; decide +kernel, ⟨_, rfl⟩, _, exec_sample _ _, by simp only [sampleFrame_read]; decide +kernel⟩

/-- `LimiterLinearBelowThreshold`: the last linear values on both sides. -/
theorem test_witness_LimiterLinearBelowThreshold :
    ((5033164 : Int).natAbs : Int) < (C_FB : Int) - 16777216 + (K_FB : Int) ∧
    ((-838860 : Int).natAbs : Int) < (C_WET : Int) - 16777216 + (K_WET : Int) := by decide

/-- `LimiterBoundedAboveThreshold`, `LimiterShape`: a configuration that meets the contract, and inputs at the threshold, at
both ends, and in order; the last clause's premise, for a function that is never above its argument. -/
theorem test_witness_LimiterShape : ∃ cfg : Config, cfg.Contract ∧ (∀ u : Nat, cfg.softclip K_FB u ≤ u) ∧
    K_FB < 16777216 ∧ 16777216 ≤ C_FB ∧
    (C_FB : Int) - 16777216 + (K_FB : Int) = ((-5033165 : Int).natAbs : Int) ∧
    (C_FB : Int) - 16777216 + (K_FB : Int) ≤ ((-2147483648 : Int).natAbs : Int) ∧
    (5033165 : Int).natAbs ≤ (2147483647 : Int).natAbs ∧ (5033165 : Int) ≠ -2147483648 :=
  ⟨Config.someInstance.default.val, Config.someInstance.default.property, fun u => Nat.zero_le u, by decide, by decide,
    by decide, by decide, by decide, by decide⟩

/-- `ReferenceSoftclipMeetsContract`, `ReferenceDerivationsMeetContract`: the ends of their ranges. -/
theorem test_witness_reference_ranges : (16777215 : Nat) < 16777216 ∧ (0 : Nat) ≤ 2147483648 ∧ (0 : Nat) ≤ 2147483647 ∧
    (2147483647 : Nat) < 2147483648 ∧ Config.softclipRef 16777215 2147483648 = 0 := by decide +kernel

/-- `SampleRampsGain`: both sides of the snap point. -/
theorem test_witness_SampleRampsGain : (frameStart 0 16776879).read .gInputGain = 16776879 ∧
    (frameStart 0 16776880).read .gInputGain = 16776880 ∧ (16776880 : Int) ≤ 16777216 := by decide +kernel

/-- `GainBoundedAndMonotone`: each kind of command, below the snap point and at `ONE`. -/
theorem test_witness_GainBoundedAndMonotone : (frameStart 0 16776879).read .gInputGain < 16776880 ∧
    (frameStart 0 16777216).read .gInputGain = 16777216 ∧
    (∃ t : State, exec .init (frameStart 0 16777216) = .next t) ∧ (∃ t : State, exec .resume (frameStart 0 16777216) = .next t) ∧
    (∃ t : State, exec (.sample 1#32) (frameStart 0 16777216) = .next t) ∧
    (∃ t : State, exec .block (frameStart 0 16777216) = .next t) :=
  ⟨by decide +kernel, by decide +kernel, ⟨_, rfl⟩, ⟨_, rfl⟩, ⟨_, rfl⟩, _, rfl⟩

/-- `GainFollowsExponentialLaw`: the rows of R205 at the clauses' ends. -/
theorem test_witness_GainFollowsExponentialLaw : gainAfter 0 = 0 ∧ gainAfter 6 * 16 ^ 6 = 16777216 * (16 ^ 6 - 15 ^ 6) ∧
    gainAfter 4 = 3817216 ∧ gainAfter 168 = 16776880 ∧ gainAfter 169 = 16777216 := by decide +kernel

/-- `GainStaysInSequence`: RESUME and INIT, and a step from `G_4`. -/
theorem test_witness_GainStaysInSequence : (∃ t : State, exec .resume midRun = .next t) ∧
    (∃ t : State, exec .init midRun = .next t) ∧ (frameStart 0 3817216).GainInSequence ∧
    ∃ t : State, step { frameStart 0 3817216 with cmdIn := [0x05000000#32, 9#32] } = .next t :=
  ⟨⟨_, rfl⟩, ⟨_, rfl⟩, ⟨4, by decide +kernel⟩, _, rfl⟩

/-- `OnlyListedWritersWrite`, `PortEventsInOrder`: a register SAMPLE does not write. -/
theorem test_witness_OnlyListedWritersWrite : (∃ t : State, exec (.sample 1#32) midRun = .next t) ∧
    Reg.pTime ∉ writesOf (.sample 1#32) := ⟨⟨_, rfl⟩, by decide⟩

/-- `StepKeepsWrittenInRange`: after a SETTIME as the first command of a run, some registers written and some not, and a step
that reads an unwritten one. -/
theorem test_witness_StepKeepsWrittenInRange : (State.reset.put .pTime 7).WrittenInRange ∧
    (State.reset.put .pTime 7).uninit = none ∧ (State.reset.put .pTime 7).written .pTime = true ∧
    ∃ t : State, step { State.reset.put .pTime 7 with cmdIn := [0x04000000#32] } = .next t ∧ t.uninit = some .pDepth :=
  ⟨by intro _ r; cases r <;> decide +kernel, rfl, by decide +kernel, _, rfl, by decide +kernel⟩

/-- `StepKeepsAllInRange`, `StepKeepsCoherent`: a state in range, its fold and increments coherent, and a step from it. -/
theorem test_witness_StepKeepsCoherent : (midRun.put .pTimerInc 86430).AllInRange ∧ (midRun.put .pTimerInc 86430).Coherent ∧
    ∃ t : State, step { midRun.put .pTimerInc 86430 with cmdIn := [0x05000000#32, 9#32] } = .next t := by
  refine ⟨?_, by constructor <;> decide +kernel, _, rfl⟩
  intro r; cases r <;> decide +kernel

/-- `UnwrittenReadIsRecorded`: a record made at power-on, and one that stands. -/
theorem test_witness_UnwrittenReadIsRecorded : State.reset.uninit = none ∧
    (∃ t : State, exec .block State.reset = .next t ∧ t.uninit = some .pTime) ∧
    ∃ t : State, exec (.rdReg 0x20#8) { State.reset with uninit := some .pTime } = .next t ∧ t.uninit = some .pTime :=
  ⟨rfl, ⟨_, rfl, by decide +kernel⟩, _, rfl, by decide +kernel⟩

/-- `UnwrittenReadHasNoMeaningInRun`: both clauses, at power-on and after INIT (R264, I1). -/
theorem test_witness_UnwrittenReadHasNoMeaningInRun : State.reset.uninit = none ∧
    (readsOf State.reset (.rdReg 0x20#8)).find? (fun r => !State.reset.written r) = some .gInputGain ∧
    runCommand (.rdReg 0x20#8) State.reset = .fault (.uninit .gInputGain) ∧ afterInit.uninit = none ∧
    (∀ r ∈ readsOf afterInit (.sample 1#32), afterInit.written r = true) :=
  ⟨rfl, by decide +kernel, rfl, rfl, by decide +kernel⟩

/-- Each kind of command is taken as the first one after power-on. -/
theorem test_first_command_completes : ∀ w ∈ [0, 0x01000000, 0x02000000, 0x03000000, 0x03000001, 0x03000002, 0x04000000,
    0x05000000, 0x06000001, 0x07000000], (match step (State.reset.withFetchWord 32 w) with
      | .next _ => true
      | _ => false) = true := by decide +kernel

/-- `FaultedRunHasNoEnd`: a state that carries a record. -/
theorem test_witness_FaultedRunHasNoEnd : ({ State.reset with uninit := some .pTime } : State).uninit = some .pTime := rfl

end Sys2Proof.Tests
end

/-! # The state family: ranges, writers and coherence (10_state.md) -/

namespace Sys2Proof.Machine

/-! ## The table (R43) -/

/-- R43: raised to the power 256, each entry lies within one half of `2^16 * 2^(-i/256)`. -/
theorem lfoTable_rounds_decay : ∀ i < 256,
    (2 * lfoTable i - 1) ^ 256 * 2 ^ i < 2 ^ (17 * 256) ∧ 2 ^ (17 * 256) < (2 * lfoTable i + 1) ^ 256 * 2 ^ i := by
  decide +kernel

theorem lfoTable_succ_lt : ∀ i < 255, lfoTable (i + 1) < lfoTable i := by decide +kernel

theorem lfoTable_sum : ((List.range 256).map lfoTable).sum = 12118596 := by decide +kernel

/-- Settles O37: the table is a constant, so each clause is a closed fact about its 256 entries. -/
theorem lfoTableIsRoundedDecay : Obligations.LfoTableIsRoundedDecay :=
  ⟨lfoTable_rounds_decay, lfoTable_succ_lt, rfl, rfl, lfoTable_sum⟩

/-! ## What a command writes and reads (R30, R49, R264) -/

@[simp] theorem Reg.mem_all (r : Reg) : r ∈ Reg.all := by cases r <;> decide

/-- The frame of every command: a register outside its writers column keeps its word and its validity (R30, R49). -/
theorem exec_frame {i : Instr} {s t : State} {r : Reg} (h : exec i s = .next t) (hr : r ∉ writesOf i) :
    t.get r = s.get r ∧ t.written r = s.written r := by
  cases i with
  | init => exact absurd (Reg.mem_all r) hr
  | nop | paramIgnored | reserved | rdReg => obtain rfl : t = _ := exec_cases h; exact ⟨rfl, rfl⟩
  | resume | setTime | setDepth =>
    obtain rfl : t = _ := exec_cases h
    simp only [writesOf, List.mem_singleton] at hr
    simp [hr]
  | block =>
    obtain rfl : t = _ := exec_cases h
    simp only [writesOf, List.mem_cons, List.not_mem_nil, or_false, not_or] at hr
    simp [hr]
  | sample =>
    obtain rfl : t = _ := exec_cases h
    simp only [writesOf, List.mem_cons, List.not_mem_nil, or_false, not_or] at hr
    obtain ⟨hT, hDir, hOut, hOut2, hGain⟩ := hr
    simp [hGain, lfoStep_frame s r (by simp [hT, hDir, hOut, hOut2])]

theorem exec_frame_read {i : Instr} {s t : State} {r : Reg} (h : exec i s = .next t) (hr : r ∉ writesOf i) :
    t.read r = s.read r := by
  simp only [State.read, (exec_frame h hr).1]

/-- Settles O47: the frame of every command. -/
theorem onlyListedWritersWrite : Obligations.OnlyListedWritersWrite :=
  fun _ _ _ _ h hr => exec_frame h hr

/-- The record after a command: the one that stood, else the first unwritten register among its reads (R264, log 2). -/
theorem exec_uninit {i : Instr} {s t : State} (h : exec i s = .next t) :
    t.uninit = s.uninit.or ((readsOf s i).find? fun r => !s.written r) := by
  cases i with
  | sample x => obtain rfl : t = _ := exec_cases h; rw [readsOf_sample, sampleFrame_uninit, State.uninit_noteReads]
  | block | rdReg => obtain rfl : t = _ := exec_cases h; rfl
  | _ => obtain rfl : t = _ := exec_cases h; simp [readsOf]

/-- A command that leaves no record found none, and every register it read was written. -/
theorem reads_written_of_no_record {i : Instr} {s t : State} (h : exec i s = .next t) (ht : t.uninit = none) :
    s.uninit = none ∧ ∀ r ∈ readsOf s i, s.written r = true := by
  rw [exec_uninit h, Option.or_eq_none_iff] at ht
  simpa using ht

/-- Whichever branch of `LFO_STEP` is taken, SAMPLE reads the same seven registers (R150, R210). -/
theorem mem_readsOf_sample {s : State} {x : Word} {r : Reg} : r ∈ readsOf s (.sample x) ↔
    r ∈ [Reg.lfoT, .lfoDt, .lfoDir, .lfoTh, .lfoOut, .pDepthScale, .gInputGain] := by
  rw [readsOf_sample]
  unfold sampleReads lfoReads
  split_ifs <;> cases r <;> decide

/-! ## The ranges of R30, of a register's integer -/

/-- The range column of R30, over the integer a register is in every rule. -/
def Reg.Admits (r : Reg) (v : Int) : Prop :=
  match r with
  | .lfoT => v < 4194304
  | .lfoDt | .pTimerInc => 1 ≤ v ∧ v ≤ 1069547520 ∨ v = 1073741824
  | .lfoDir => v ≤ 1
  | .lfoTh => v = 32768
  | .lfoOut => v ≤ 32767
  | .lfoOut2 => v ≤ 32768
  | .lfoCenter => v = 16384
  | .pTime | .pDepth => v < 2147483648
  | .pDepthScale | .gInputGain => v ≤ 16777216

theorem inRange_iff_admits (s : State) (r : Reg) : r.inRange (s.get r) = true ↔ r.Admits (s.read r) := by
  cases r <;>
    simp only [Reg.inRange, Reg.Admits, State.read, decide_eq_true_eq, TABLE_STEP, INC_MAX, TIMER_MAX, TH_INIT, ONE] <;>
    omega

/-- INIT's word of each register is in its range (R241). -/
theorem initWord_inRange (r : Reg) : r.inRange (initWord r) = true := by cases r <;> decide

/-! ## `LFO_STEP` on registers in range (R154 to R156, R160) -/

/-- One update strictly raises the level, by so little that a crossing overshoots by at most 16339 (R154, R155). -/
theorem approach_bounds {level : Int} {idx : Nat} (h₀ : 0 ≤ level) (h₁ : level ≤ 32767) (hi : 1 ≤ idx) (hi' : idx ≤ 255) :
    level < approach level idx ∧ approach level idx ≤ 49107 := by
  obtain ⟨hlo, hhi⟩ := lfoTable_range idx (by omega) hi
  have hupper : (65536 - level) * (lfoTable idx : Int) ≤ (65536 - level) * 65359 :=
    mul_le_mul_of_nonneg_left (by omega) (by omega)
  have hlower : (32769 : Int) * 32857 ≤ (65536 - level) * (lfoTable idx : Int) :=
    mul_le_mul (by omega) (by omega) (by omega) (by omega)
  rw [approach_eq]
  omega

section
variable {s : State}

/-- The level an update keeps is below the threshold: under it already, or the overshoot beyond it (R155, R160). -/
theorem keptLevel_range (hth : s.read .lfoTh = 32768) (hout : s.read .lfoOut ≤ 32767) (hidx : tableIndex s ≠ 0) :
    0 ≤ keptLevel s ∧ keptLevel s ≤ 32767 := by
  have hlevel : s.read .lfoOut < newLevel s ∧ newLevel s ≤ 49107 :=
    approach_bounds (s.read_nonneg _) hout (by omega) (tableIndex_le s)
  have := s.read_nonneg .lfoOut
  unfold keptLevel
  split_ifs <;> omega

theorem lfoAdvance_read_lfoT : (lfoAdvance s).read .lfoT = keptPhase s := by
  have := keptPhase_lt s
  simp only [State.read, lfoAdvance_get, if_true]
  exact wordOf_toNat (by omega) (by omega)

theorem lfoAdvance_read_lfoTh : (lfoAdvance s).read .lfoTh = s.read .lfoTh := by
  simp [State.read, lfoAdvance_get]

theorem lfoAdvance_read_lfoOut_le (hth : s.read .lfoTh = 32768) (hout : s.read .lfoOut ≤ 32767) :
    (lfoAdvance s).read .lfoOut ≤ 32767 := by
  by_cases hidx : tableIndex s = 0
  · simpa [State.read, lfoAdvance_get, hidx] using hout
  · obtain ⟨h₀, h₁⟩ := keptLevel_range hth hout hidx
    have hword : (lfoAdvance s).read .lfoOut = keptLevel s := by
      simpa [State.read, lfoAdvance_get, hidx] using wordOf_toNat h₀ (by omega)
    omega

theorem lfoAdvance_read_lfoDir_le (hdir : s.read .lfoDir ≤ 1) : (lfoAdvance s).read .lfoDir ≤ 1 := by
  by_cases hc : Crosses s
  · have h₀ := s.read_nonneg .lfoDir
    have hword : (lfoAdvance s).read .lfoDir = 1 - s.read .lfoDir := by
      rw [State.read, lfoAdvance_get, if_neg (by decide), if_neg (by simp), if_pos ⟨rfl, hc⟩]
      exact wordOf_toNat (by omega) (by omega)
    omega
  · simpa [State.read, lfoAdvance_get, hc] using hdir

/-- The fold of a level below the threshold stays within it (R156). -/
theorem folded_range (hth : s.read .lfoTh = 32768) (hout : s.read .lfoOut ≤ 32767) :
    0 ≤ folded s ∧ folded s ≤ 32768 := by
  have := s.read_nonneg .lfoOut
  unfold folded fold
  split_ifs <;> omega

theorem folded_lfoAdvance_range (hth : s.read .lfoTh = 32768) (hout : s.read .lfoOut ≤ 32767) :
    0 ≤ folded (lfoAdvance s) ∧ folded (lfoAdvance s) ≤ 32768 :=
  folded_range (lfoAdvance_read_lfoTh.trans hth) (lfoAdvance_read_lfoOut_le hth hout)

/-- Every register but the fold is left by the level, direction and phase part of the step. -/
theorem lfoStep_read_of_ne {r : Reg} (h : r ≠ .lfoOut2) : (lfoStep s).read r = (lfoAdvance s).read r := by
  simp [State.read, lfoStep_get, h]

/-- The fold a step leaves fits its register: no bit is lost when it is written (R156). -/
theorem lfoStep_read_lfoOut2 (hth : s.read .lfoTh = 32768) (hout : s.read .lfoOut ≤ 32767) :
    (lfoStep s).read .lfoOut2 = folded (lfoAdvance s) := by
  obtain ⟨h₀, h₁⟩ := folded_lfoAdvance_range hth hout
  simp only [State.read, lfoStep_get, if_true]
  exact wordOf_toNat h₀ (by omega)

theorem lfoStep_read_lfoOut2_le (hth : s.read .lfoTh = 32768) (hout : s.read .lfoOut ≤ 32767) :
    (lfoStep s).read .lfoOut2 ≤ 32768 :=
  (lfoStep_read_lfoOut2 hth hout).trans_le (folded_lfoAdvance_range hth hout).2

/-- The fold a step leaves is that of the level and direction beside it (R36). -/
theorem lfoStep_lfoOut2_eq_folded (hth : s.read .lfoTh = 32768) (hout : s.read .lfoOut ≤ 32767) :
    (lfoStep s).read .lfoOut2 = folded (lfoStep s) := by
  rw [lfoStep_read_lfoOut2 hth hout]
  simp [folded, lfoStep_read_of_ne]

end

/-! ## Every command writes in range what it writes, from reads in range -/

/-- SAMPLE's five registers, from the seven it reads. -/
theorem exec_sample_writes_inRange {x : Word} {s t : State} (h : exec (.sample x) s = .next t)
    (hreads : ∀ r ∈ readsOf s (.sample x), r.inRange (s.get r) = true) {r : Reg} (hr : r ∈ writesOf (.sample x)) :
    r.inRange (t.get r) = true := by
  obtain rfl : t = _ := exec_cases h
  have hread : ∀ q ∈ [Reg.lfoT, .lfoDt, .lfoDir, .lfoTh, .lfoOut, .pDepthScale, .gInputGain], q.Admits (s.read q) :=
    fun q hq => (inRange_iff_admits s q).1 (hreads q (mem_readsOf_sample.2 hq))
  have hth : s.read .lfoTh = 32768 := hread .lfoTh (by decide)
  have hout : s.read .lfoOut ≤ 32767 := hread .lfoOut (by decide)
  rw [inRange_iff_admits, sampleFrame_read]
  simp only [writesOf, List.mem_cons, List.not_mem_nil, or_false] at hr
  obtain rfl | rfl | rfl | rfl | rfl := hr
  · rw [if_neg (by decide), lfoStep_read_of_ne (by decide), lfoAdvance_read_lfoT]
    exact Int.ofNat_lt.2 (keptPhase_lt s)
  · rw [if_neg (by decide), lfoStep_read_of_ne (by decide)]
    exact lfoAdvance_read_lfoDir_le (hread .lfoDir (by decide))
  · rw [if_neg (by decide), lfoStep_read_of_ne (by decide)]
    exact lfoAdvance_read_lfoOut_le hth hout
  · rw [if_neg (by decide)]
    exact lfoStep_read_lfoOut2_le hth hout
  · obtain ⟨h₀, h₁⟩ := gainNext_range (s.read_nonneg .gInputGain) (hread .gInputGain (by decide))
    rw [if_pos rfl, wordOf_toNat h₀ (by omega)]
    exact h₁

/-- BLOCK's three registers, by the contract of the configuration functions (R134, R135). -/
theorem exec_block_writes_inRange {s t : State} (h : exec .block s = .next t)
    (hreads : ∀ r ∈ readsOf s .block, r.inRange (s.get r) = true) {r : Reg} (hr : r ∈ writesOf .block) :
    r.inRange (t.get r) = true := by
  obtain rfl : t = _ := exec_cases h
  have htime : (s.get .pTime).toNat < 2147483648 := of_decide_eq_true (hreads .pTime (by simp [readsOf]))
  have hdepth : (s.get .pDepth).toNat < 2147483648 := of_decide_eq_true (hreads .pDepth (by simp [readsOf]))
  have hinc := Config.hw_contract.rateInc_range _ htime
  have hscale := Config.hw_contract.depthScale_range _ hdepth
  simp only [writesOf, List.mem_cons, List.not_mem_nil, or_false] at hr
  obtain rfl | rfl | rfl := hr
  · simpa [Reg.inRange] using .inl hinc
  · simpa [Reg.inRange] using .inl hinc
  · simpa [Reg.inRange] using hscale.2

/-- Once for all: a command whose reads are in range puts every register it writes in its range (R30). -/
theorem exec_writes_inRange {i : Instr} {s t : State} (h : exec i s = .next t)
    (hreads : ∀ r ∈ readsOf s i, r.inRange (s.get r) = true) {r : Reg} (hr : r ∈ writesOf i) :
    r.inRange (t.get r) = true := by
  cases i with
  | nop | paramIgnored | rdReg | reserved => exact absurd hr List.not_mem_nil
  | init =>
    obtain rfl : t = _ := exec_cases h
    rw [initRegisters_get]
    exact initWord_inRange r
  | resume =>
    obtain rfl : t = _ := exec_cases h
    obtain rfl := List.mem_singleton.1 hr
    simp [Reg.inRange, wordOf]
  | setTime v | setDepth v =>
    obtain rfl : t = _ := exec_cases h
    obtain rfl := List.mem_singleton.1 hr
    obtain ⟨h₀, h₁⟩ := clipQ31_range v
    rw [inRange_iff_admits, State.read_put, if_pos rfl, wordOf_toNat h₀ (by omega)]
    exact h₁
  | block => exact exec_block_writes_inRange h hreads hr
  | sample x => exact exec_sample_writes_inRange h hreads hr

/-! ## The invariants -/

theorem exec_init_allInRange {s t : State} (h : exec .init s = .next t) : t.AllInRange := fun r =>
  exec_writes_inRange h (fun _ hq => absurd hq List.not_mem_nil) (Reg.mem_all r)

theorem exec_keeps_allInRange {i : Instr} {s t : State} (hs : s.AllInRange) (h : exec i s = .next t) : t.AllInRange := by
  intro r
  by_cases hr : r ∈ writesOf i
  · exact exec_writes_inRange h (fun q _ => hs q) hr
  · rw [(exec_frame h hr).1]
    exact hs r

/-- Settles O51: INIT writes every register, and a command keeps a register or writes it in range. -/
theorem stepKeepsAllInRange : Obligations.StepKeepsAllInRange :=
  ⟨fun _ _ => exec_init_allInRange,
   fun s _ => step_induct s (fun _ _ hs => hs) (fun _ _ _ => exec_keeps_allInRange)⟩

theorem exec_keeps_writtenInRange {i : Instr} {s t : State} (hs : s.WrittenInRange) (h : exec i s = .next t) :
    t.WrittenInRange := by
  intro ht r hw
  obtain ⟨hnone, hwritten⟩ := reads_written_of_no_record h ht
  by_cases hr : r ∈ writesOf i
  · exact exec_writes_inRange h (fun q hq => hs hnone q (hwritten q hq)) hr
  · obtain ⟨hget, hvalid⟩ := exec_frame h hr
    rw [hget]
    exact hs hnone r (hvalid ▸ hw)

/-- Settles O49: without a record every register read was written, so in range; the rest is as for `AllInRange`. -/
theorem stepKeepsWrittenInRange : Obligations.StepKeepsWrittenInRange :=
  fun s _ => step_induct s (fun _ _ hs => hs) (fun _ _ _ => exec_keeps_writtenInRange)

/-! ## Coherence (R36, R40) -/

/-- A command that writes none of the six registers coherence speaks of keeps it. -/
theorem coherent_of_frame {i : Instr} {s t : State} (hs : s.Coherent) (h : exec i s = .next t)
    (hr : ∀ r ∈ [Reg.lfoOut2, .lfoDir, .lfoTh, .lfoOut, .lfoDt, .pTimerInc], r ∉ writesOf i) : t.Coherent := by
  obtain ⟨hfold, hinc⟩ := hs
  simp only [List.forall_mem_cons] at hr
  obtain ⟨hOut2, hDir, hTh, hOut, hDt, hInc, -⟩ := hr
  constructor
  · simpa only [folded, exec_frame_read h hOut2, exec_frame_read h hDir, exec_frame_read h hTh, exec_frame_read h hOut]
      using hfold
  · rw [(exec_frame h hDt).1, (exec_frame h hInc).1, hinc]

theorem exec_init_coherent {s t : State} (h : exec .init s = .next t) : t.Coherent := by
  obtain rfl : t = _ := exec_cases h
  simp [State.Coherent, folded, fold, initWord]

/-- BLOCK writes both increments alike and leaves the LFO's level, direction and fold (R138). -/
theorem exec_block_coherent {s t : State} (hs : s.Coherent) (h : exec .block s = .next t) : t.Coherent := by
  obtain rfl : t = _ := exec_cases h
  exact ⟨by simpa [folded] using hs.1, by simp⟩

/-- SAMPLE writes the fold last, and neither increment (R150, R156). -/
theorem exec_sample_coherent {x : Word} {s t : State} (hr : s.AllInRange) (hs : s.Coherent)
    (h : exec (.sample x) s = .next t) : t.Coherent := by
  constructor
  · obtain rfl : t = _ := exec_cases h
    simpa [folded] using lfoStep_lfoOut2_eq_folded ((inRange_iff_admits s .lfoTh).1 (hr _))
      ((inRange_iff_admits s .lfoOut).1 (hr _))
  · rw [(exec_frame h (by simp [writesOf])).1, (exec_frame h (by simp [writesOf])).1, hs.2]

theorem exec_keeps_coherent {i : Instr} {s t : State} (hr : s.AllInRange) (hs : s.Coherent) (h : exec i s = .next t) :
    t.Coherent := by
  cases i with
  | init => exact exec_init_coherent h
  | block => exact exec_block_coherent hs h
  | sample x => exact exec_sample_coherent hr hs h
  | _ => exact coherent_of_frame hs h (by simp [writesOf])

/-- Settles O52: INIT, BLOCK and SAMPLE re-establish the coherence they touch; no other command touches it. -/
theorem stepKeepsCoherent : Obligations.StepKeepsCoherent := by
  refine ⟨fun _ _ => exec_init_coherent, fun s t hr hs h => ?_⟩
  have hboth : t.AllInRange ∧ t.Coherent :=
    step_induct (P := fun u => u.AllInRange ∧ u.Coherent) s (fun _ _ hu => hu)
      (fun _ _ _ hu he => ⟨exec_keeps_allInRange hu.1 he, exec_keeps_coherent hu.1 hu.2 he⟩) ⟨hr, hs⟩ h
  exact hboth.2

end Sys2Proof.Machine

/-! # The memory and port family: the transport, the port events and the step (20_memory.md) -/

namespace Sys2Proof

/-! ## Bytes of a transport (R76) -/

/-- The bytes of a word as numbers: its base-256 digits, the lowest first. -/
theorem bytesOfWord_toNat (w : Word) : (bytesOfWord w).map BitVec.toNat =
    [w.toNat % 256, w.toNat / 256 % 256, w.toNat / 65536 % 256, w.toNat / 16777216] := by
  have hw : w.toNat < 4294967296 := w.isLt
  have hhigh : w.toNat / 16777216 % 256 = w.toNat / 16777216 := Nat.mod_eq_of_lt (by omega)
  simp [bytesOfWord, Nat.shiftRight_eq_div_pow, hhigh]

/-- The four fields a word is cut into, put together again. -/
theorem append_bytes_eq (w : Word) :
    (w.extractLsb' 24 8 ++ w.extractLsb' 16 8 ++ w.extractLsb' 8 8 ++ w.extractLsb' 0 8 : BitVec 32) = w := by
  rw [BitVec.extractLsb'_append_extractLsb'_eq_extractLsb' (by rfl),
    BitVec.extractLsb'_append_extractLsb'_eq_extractLsb' (by rfl),
    BitVec.extractLsb'_append_extractLsb'_eq_extractLsb' (by rfl)]
  exact BitVec.extractLsb'_eq_self

/-- A word's bytes are read as that word, whatever bytes follow. -/
theorem wordsOfBytes_bytesOfWord_append (w : Word) (bs : List Byte) :
    wordsOfBytes (bytesOfWord w ++ bs) = w :: wordsOfBytes bs :=
  congrArg (· :: wordsOfBytes bs) (append_bytes_eq w)

theorem wordsOfBytes_flatMap_bytesOfWord (ws : List Word) : wordsOfBytes (ws.flatMap bytesOfWord) = ws := by
  induction ws with
  | nil => rfl
  | cons w ws ih => rw [List.flatMap_cons, wordsOfBytes_bytesOfWord_append, ih]

/-- Settles O6: the digits of one word, and the round trip by induction on the stream. -/
theorem transportCarriesWords : Obligations.TransportCarriesWords :=
  ⟨bytesOfWord_toNat, wordsOfBytes_flatMap_bytesOfWord⟩

end Sys2Proof

namespace Sys2Proof.Machine

/-! ## The ports of each command (R73) -/

/-- No command takes words of `CMD_IN` beyond its own. -/
theorem exec_cmdIn {i : Instr} {s t : State} (h : exec i s = .next t) : t.cmdIn = s.cmdIn := by
  cases i with
  | sample => obtain rfl : t = _ := exec_cases h; rw [sampleFrame_cmdIn, State.cmdIn_noteReads]
  | _ => obtain rfl : t = _ := exec_cases h; rfl

/-- Settles O48: SAMPLE's four events are those of its frame; the other commands touch the ports at most where their
meaning emits. -/
theorem portEventsInOrder : Obligations.PortEventsInOrder := by
  intro i s t h
  refine ⟨exec_cmdIn h, ?_⟩
  cases i with
  | sample =>
    obtain rfl : t = _ := exec_cases h
    exact ⟨_, sampleFrame_events .., by simp, _, _, _, _, rfl⟩
  | init => obtain rfl : t = _ := exec_cases h; exact ⟨[.dlInit, .dlReset], by simp, rfl, rfl⟩
  | resume => obtain rfl : t = _ := exec_cases h; exact ⟨[.dlReset], rfl, rfl, rfl⟩
  | rdReg => obtain rfl : t = _ := exec_cases h; exact ⟨_, rfl, rfl, _, rfl⟩
  | nop | setTime | setDepth | paramIgnored | block | reserved =>
    obtain rfl : t = _ := exec_cases h
    exact ⟨[], by simp, rfl, rfl⟩

/-! ## The step (R72, R104, R273) -/

/-- With a whole command on `CMD_IN`, the step is its execution. -/
theorem step_of_decode_ok {s : State} {i : Instr} {rest : List Word} (h : decode s.cmdIn = .ok (i, rest)) :
    step s = exec i { s with cmdIn := rest } := by
  simp only [step, fetch, h]

/-- While no whole command has arrived, the step changes nothing. -/
theorem step_of_decode_error {s : State} {e : DecodeReject} (h : decode s.cmdIn = .error e) : step s = .next s := by
  simp only [step, fetch, h]

/-- Settles O8: the two answers of the decoder. -/
theorem stepRunsDecodedCommand : Obligations.StepRunsDecodedCommand :=
  ⟨fun _ _ _ => step_of_decode_ok, fun _ _ => step_of_decode_error⟩

end Sys2Proof.Machine

/-! # The encoding family: the fields, the opcode map, the table and the assembler (30_encoding.md) -/

namespace Sys2Proof

/-! ## The fields of a word (R101) -/

/-- A word is its three fields. -/
theorem commandWord_fields (w : Word) : commandWord (opcOf w) (rsvOf w) (selOf w) = w := by
  unfold commandWord opcOf rsvOf selOf
  rw [BitVec.extractLsb'_append_extractLsb'_eq_extractLsb' (by rfl),
    BitVec.extractLsb'_append_extractLsb'_eq_extractLsb' (by rfl)]
  exact BitVec.extractLsb'_eq_self

theorem eq_iff_fields {w p : Word} : w = p ↔ opcOf w = opcOf p ∧ rsvOf w = rsvOf p ∧ selOf w = selOf p := by
  refine ⟨by rintro rfl; exact ⟨rfl, rfl, rfl⟩, fun ⟨hopc, hrsv, hsel⟩ => ?_⟩
  rw [← commandWord_fields w, ← commandWord_fields p, hopc, hrsv, hsel]

/-- A command word with `RSV` zero is its opcode and its selector in place (R101). -/
theorem commandWord_toNat (opc sel : BitVec 8) :
    (commandWord opc 0#16 sel).toNat = 16777216 * opc.toNat + sel.toNat := by
  have hsel : sel.toNat < 256 := sel.isLt
  rw [commandWord, BitVec.toNat_append, BitVec.toNat_append, ← Nat.shiftLeft_add_eq_or_of_lt hsel]
  simp [Nat.shiftLeft_eq]
  omega

/-! ## The opcode map, branch by branch (R103, R109) -/

/-- PARAM, which goes on to read its selector, and the reserved opcodes stand first. -/
theorem opcode_cases (opc : BitVec 8) : opc = 0x03#8 ∨ 7 ≤ opc.toNat ∨
    opc = 0x00#8 ∨ opc = 0x01#8 ∨ opc = 0x02#8 ∨ opc = 0x04#8 ∨ opc = 0x05#8 ∨ opc = 0x06#8 := by
  simp only [← BitVec.toNat_inj, BitVec.toNat_ofNat]
  omega

/-- The selectors as PARAM tells them apart (R109). -/
theorem selector_cases (sel : BitVec 8) : sel = 0x00#8 ∨ sel = 0x01#8 ∨ 2 ≤ sel.toNat := by
  simp only [← BitVec.toNat_inj, BitVec.toNat_ofNat]
  omega

theorem ne_of_le_toNat {a : BitVec 8} {n : Nat} (h : n ≤ a.toNat) (b : BitVec 8) (hb : b.toNat < n) : a ≠ b := by
  rintro rfl
  omega

theorem decodeParam_ignored {sel : BitVec 8} (v : Word) (h : 2 ≤ sel.toNat) :
    decodeParam sel v = .paramIgnored sel v := by
  simp [decodeParam, ne_of_le_toNat h]

theorem decodeFields_reserved {opc : BitVec 8} (sel : BitVec 8) (v : Word) (h : 7 ≤ opc.toNat) :
    decodeFields opc sel v = .reserved opc := by
  simp [decodeFields, ne_of_le_toNat h]

theorem takesOperand_reserved {opc : BitVec 8} (h : 7 ≤ opc.toNat) : takesOperand opc = false := by
  simp [takesOperand, ne_of_le_toNat h]

/-- Only PARAM and RDREG read `SEL` (R103). -/
theorem decodeFields_ignores_sel {opc : BitVec 8} (sel sel' : BitVec 8) (v : Word) (hparam : opc ≠ 0x03#8)
    (hrdreg : opc ≠ 0x06#8) : decodeFields opc sel v = decodeFields opc sel' v := by
  simp only [decodeFields, hparam, hrdreg, if_false]

/-! ## Decoding a command word by its fields (R104) -/

theorem decodeCommand_commandWord (opc sel : BitVec 8) (rsv : BitVec 16) (v : Word) :
    decodeCommand (commandWord opc rsv sel) v = decodeFields opc sel v := by
  simp only [decodeCommand, opcOf_commandWord, selOf_commandWord]

theorem decode_commandWord_operand {opc sel : BitVec 8} {v : Word} {i : Instr} (h : takesOperand opc = true)
    (hi : decodeFields opc sel v = i) (rsv : BitVec 16) (rest : List Word) :
    decode (commandWord opc rsv sel :: v :: rest) = .ok (i, rest) := by
  rw [decode_operand v rest (by rwa [opcOf_commandWord]), decodeCommand_commandWord, hi]

theorem decode_commandWord_plain {opc sel : BitVec 8} {i : Instr} (h : takesOperand opc = false)
    (hi : decodeFields opc sel 0#32 = i) (rsv : BitVec 16) (rest : List Word) :
    decode (commandWord opc rsv sel :: rest) = .ok (i, rest) := by
  rw [decode_plain rest (by rwa [opcOf_commandWord]), decodeCommand_commandWord, hi]

/-- The decoder knows a command word by its opcode and the command it stands for. -/
theorem decode_congr {w w' : Word} (hopc : opcOf w = opcOf w') (hcmd : decodeCommand w = decodeCommand w')
    (rest : List Word) : decode (w :: rest) = decode (w' :: rest) := by
  simp only [decode, hopc, hcmd]

/-- Settles O1: by the commands, each through its branch of the opcode map. -/
theorem decodeOfEncode : Obligations.DecodeOfEncode := by
  intro i rest hi
  cases i with
  | nop | init | resume | block | rdReg => exact decode_commandWord_plain rfl rfl ..
  | setTime | setDepth => exact decode_commandWord_operand (opc := 0x03#8) rfl rfl ..
  | sample => exact decode_commandWord_operand (opc := 0x05#8) rfl rfl ..
  | paramIgnored sel v =>
    have hsel : 2 ≤ sel.toNat := of_decide_eq_true hi
    exact decode_commandWord_operand (opc := 0x03#8) rfl (decodeParam_ignored v hsel) ..
  | reserved opc =>
    have hopc : 7 ≤ opc.toNat := of_decide_eq_true hi
    exact decode_commandWord_plain (takesOperand_reserved hopc) (decodeFields_reserved 0#8 0#32 hopc) ..

/-! ## Every word decodes (R103, R111) -/

theorem decodeParam_wellFormed (sel : BitVec 8) (v : Word) : (decodeParam sel v).wellFormed = true := by
  obtain rfl | rfl | h := selector_cases sel
  · rfl
  · rfl
  · rw [decodeParam_ignored v h]
    exact decide_eq_true h

theorem decodeFields_wellFormed (opc sel : BitVec 8) (v : Word) : (decodeFields opc sel v).wellFormed = true := by
  obtain rfl | h | rfl | rfl | rfl | rfl | rfl | rfl := opcode_cases opc
  · exact decodeParam_wellFormed sel v
  · rw [decodeFields_reserved sel v h]
    exact decide_eq_true h
  all_goals rfl

theorem decodeCommand_wellFormed (w v : Word) : (decodeCommand w v).wellFormed = true :=
  decodeFields_wellFormed (opcOf w) (selOf w) v

/-- Settles O2: a command that takes an operand, and one that takes none. -/
theorem lengthFromOpcodeAlone : Obligations.LengthFromOpcodeAlone := by
  intro w operand rest
  by_cases h : takesOperand (opcOf w) = true
  · refine ⟨decodeCommand w operand, decodeCommand_wellFormed w operand, ?_⟩
    rw [if_pos ((takesOperand_iff _).mp h)]
    exact decode_operand operand rest h
  · refine ⟨decodeCommand w 0#32, decodeCommand_wellFormed w 0#32, ?_⟩
    rw [if_neg (mt (takesOperand_iff _).mpr h)]
    exact decode_plain (operand :: rest) (Bool.eq_false_iff.mpr h)

/-- Settles O3: the ignored fields reach neither the opcode nor the command. -/
theorem ignoredBitsDoNotMatter : Obligations.IgnoredBitsDoNotMatter := by
  intro opc rsv rsv' sel sel' rest
  have hread : ∀ s, decodeFields opc sel = decodeFields opc s →
      decode (commandWord opc rsv sel :: rest) = decode (commandWord opc rsv' s :: rest) := fun s hs =>
    decode_congr (by simp only [opcOf_commandWord]) (by funext v; simp only [decodeCommand_commandWord, hs]) rest
  exact ⟨hread sel rfl, fun hparam hrdreg =>
    hread sel' (funext fun v => decodeFields_ignores_sel sel sel' v hparam hrdreg)⟩

/-! ## The opcode table (R112) -/

/-- `255#8` is all ones. -/
theorem and_ones (b : BitVec 8) : b &&& 255#8 = b := BitVec.and_allOnes

/-- A mask of the opcode alone compares the opcodes. -/
theorem and_opcodeMask_beq (w p : Word) :
    (w &&& 0xFF000000#32 == p) = (opcOf w == opcOf p && (rsvOf p == 0#16 && selOf p == 0#8)) := by
  rw [Bool.eq_iff_iff]
  simp [eq_iff_fields, opcOf, rsvOf, selOf, BitVec.extractLsb'_and, and_ones, eq_comm (a := 0#16), eq_comm (a := 0#8)]

/-- A mask of the opcode and the selector compares both. -/
theorem and_opcodeSelMask_beq (w p : Word) :
    (w &&& 0xFF0000FF#32 == p) = (opcOf w == opcOf p && (rsvOf p == 0#16 && selOf w == selOf p)) := by
  rw [Bool.eq_iff_iff]
  simp [eq_iff_fields, opcOf, rsvOf, selOf, BitVec.extractLsb'_and, and_ones, eq_comm (a := 0#16)]

/-- A row's test on the fields of a word: the row of mask zero matches always, the others by opcode, and SETTIME and
SETDEPTH by selector too. -/
def OpcodeRow.matchesFields (opc sel : BitVec 8) (r : OpcodeRow) : Bool :=
  r.mask == 0#32 || opc == opcOf r.pattern && (r.mask == 0xFF000000#32 || sel == selOf r.pattern)

theorem OpcodeRow.beq_eq_matchesFields (w : Word) :
    ∀ r ∈ opcodeTable, (w &&& r.mask == r.pattern) = r.matchesFields (opcOf w) (selOf w) := by
  have hall : (w &&& 0#32 == 0#32) = true := by simp
  simp only [opcodeTable, List.forall_mem_cons]
  exact ⟨and_opcodeMask_beq w _, and_opcodeMask_beq w _, and_opcodeMask_beq w _, and_opcodeSelMask_beq w _,
    and_opcodeSelMask_beq w _, and_opcodeMask_beq w _, and_opcodeMask_beq w _, and_opcodeMask_beq w _,
    and_opcodeMask_beq w _, hall, List.forall_mem_nil _⟩

/-- The first row whose test the fields pass. -/
def rowOfFields (opc sel : BitVec 8) : Option OpcodeRow := opcodeTable.find? (OpcodeRow.matchesFields opc sel)

theorem rowOf_eq_rowOfFields (w : Word) : rowOf w = rowOfFields (opcOf w) (selOf w) :=
  List.find?_congr (OpcodeRow.beq_eq_matchesFields w)

theorem rowOfFields_paramIgnored {sel : BitVec 8} (h : 2 ≤ sel.toNat) :
    rowOfFields 0x03#8 sel = some ⟨"PARAM_IGNORED", 0x03000000#32, 0xFF000000#32, 1⟩ := by
  simp [rowOfFields, opcodeTable, OpcodeRow.matchesFields, opcOf, selOf, ne_of_le_toNat h]

theorem rowOfFields_reserved {opc : BitVec 8} (sel : BitVec 8) (h : 7 ≤ opc.toNat) :
    rowOfFields opc sel = some ⟨"RESERVED", 0x00000000#32, 0x00000000#32, 0⟩ := by
  simp [rowOfFields, opcodeTable, OpcodeRow.matchesFields, opcOf, ne_of_le_toNat h]

/-- The table and the opcode map name the same command for every pair of fields. -/
theorem decodeFields_follows_table (opc sel : BitVec 8) (v : Word) : ∃ row : OpcodeRow, rowOfFields opc sel = some row ∧
    row.mnemonic = (decodeFields opc sel v).mnemonic ∧ row.operandWords = if takesOperand opc then 1 else 0 := by
  obtain rfl | hopc | rfl | rfl | rfl | rfl | rfl | rfl := opcode_cases opc
  · obtain rfl | rfl | hsel := selector_cases sel
    · exact ⟨_, rfl, rfl, rfl⟩
    · exact ⟨_, rfl, rfl, rfl⟩
    · exact ⟨_, rowOfFields_paramIgnored hsel, (congrArg Instr.mnemonic (decodeParam_ignored v hsel)).symm, rfl⟩
  · exact ⟨_, rowOfFields_reserved sel hopc, by rw [decodeFields_reserved sel v hopc]; rfl,
      by rw [takesOperand_reserved hopc]; rfl⟩
  all_goals exact ⟨_, rfl, rfl, rfl⟩

/-- Settles O4: on the fields of the word. -/
theorem decoderFollowsOpcodeTable : Obligations.DecoderFollowsOpcodeTable := by
  intro w operand
  rw [rowOf_eq_rowOfFields]
  exact decodeFields_follows_table (opcOf w) (selOf w) operand

/-- Settles O5: each example is a closed stream. -/
theorem encodingExamples : Obligations.EncodingExamples := by
  unfold Obligations.EncodingExamples
  decide

end Sys2Proof

namespace Sys2Proof.Machine

/-! ## The reserved opcodes (R107) -/

/-- A word with a reserved opcode is read as a reserved command, whatever `RSV` and `SEL` are. -/
theorem decode_reserved {opc : BitVec 8} (h : 7 ≤ opc.toNat) (rsv : BitVec 16) (sel : BitVec 8) (rest : List Word) :
    decode (commandWord opc rsv sel :: rest) = .ok (.reserved opc, rest) :=
  decode_commandWord_plain (takesOperand_reserved h) (decodeFields_reserved sel 0#32 h) rsv rest

/-- The step on a stream of words that begins with a whole command. -/
theorem step_cmdIn_of_decode_ok {ws rest : List Word} {i : Instr} (h : decode ws = .ok (i, rest)) (s : State) :
    step { s with cmdIn := ws } = exec i { s with cmdIn := rest } :=
  step_of_decode_ok (s := { s with cmdIn := ws }) h

/-- Settles O20: the meanings agree, and a step on such a word runs that meaning. -/
theorem reservedOpcodeIsNop : Obligations.ReservedOpcodeIsNop :=
  ⟨fun _ _ => ⟨rfl, rfl⟩, fun _ rsv sel rest s h => step_cmdIn_of_decode_ok (decode_reserved h rsv sel rest) s⟩

/-! ## The assembler (R113, R114) -/

theorem AsmNumber.word_of_isOperand {n : AsmNumber} (h : n.IsOperand) : ∃ w : Word, n.Denotes w ∧ n.word = .ok w := by
  cases n with
  | hex n => exact ⟨BitVec.ofNat 32 n, Nat.mod_eq_of_lt h, if_pos h⟩
  | dec v =>
    obtain ⟨hlow, hhigh⟩ := h
    exact ⟨wordOf v, wordOf_toInt hlow hhigh, if_pos ⟨hlow, by omega⟩⟩

theorem AsmNumber.word_of_not_isOperand {n : AsmNumber} (h : ¬n.IsOperand) : n.word = .error .operandRange := by
  cases n with
  | hex n => exact if_neg h
  | dec v => exact if_neg fun ⟨hlow, hhigh⟩ => h ⟨hlow, by omega⟩

theorem AsmNumber.selector_of_isSelector {n : AsmNumber} (h : n.IsSelector) :
    ∃ sel : BitVec 8, n.Selects sel ∧ n.selector = .ok sel := by
  cases n with
  | hex n => exact ⟨BitVec.ofNat 8 n, Nat.mod_eq_of_lt (Nat.lt_succ_of_le h), if_pos (Nat.lt_succ_of_le h)⟩
  | dec v =>
    obtain ⟨hlow, hhigh⟩ := h
    refine ⟨BitVec.ofInt 8 v, ?_, if_pos ⟨hlow, by omega⟩⟩
    simp only [Selects, BitVec.toNat_ofInt]
    omega

theorem AsmNumber.selector_of_not_isSelector {n : AsmNumber} (h : ¬n.IsSelector) :
    n.selector = .error .selectorRange := by
  cases n with
  | hex n => exact if_neg fun hlt => h (Nat.le_of_lt_succ hlt)
  | dec v => exact if_neg fun ⟨hlow, hhigh⟩ => h ⟨hlow, by omega⟩

/-- A line of one command assembles to the words of that command. -/
theorem assemble_of_command {line : AsmLine} {i : Instr} (h : line.commands = .ok [i]) : assemble line = .ok (encode i) := by
  rw [assemble, h]
  exact congrArg Except.ok (List.append_nil _)

theorem assemble_of_reject {line : AsmLine} {e : AsmReject} (h : line.commands = .error e) : assemble line = .error e := by
  rw [assemble, h]
  rfl

/-- Every spelling of PARAM encodes its index in the selector (R109, R114). -/
theorem encode_paramCommand (sel : BitVec 8) (v : Word) :
    encode (paramCommand sel v) = [commandWord 0x03#8 0#16 sel, v] := by
  obtain rfl | rfl | h := selector_cases sel
  · rfl
  · rfl
  · rw [paramCommand, decodeParam_ignored v h]
    rfl

section

variable {n v : AsmNumber} {w : Word} {sel : BitVec 8} {e : AsmReject}

/-- The lines of one operand. -/
theorem assemble_operand (hv : v.word = .ok w) :
    assemble (.setTime v) = .ok [0x03000000#32, w] ∧ assemble (.setDepth v) = .ok [0x03000001#32, w] ∧
    assemble (.sample v) = .ok [0x05000000#32, w] := by
  simp only [assemble, AsmLine.commands, hv]
  exact ⟨rfl, rfl, rfl⟩

theorem assemble_operand_error (hv : v.word = .error e) :
    assemble (.setTime v) = .error e ∧ assemble (.setDepth v) = .error e ∧ assemble (.sample v) = .error e := by
  simp only [assemble, AsmLine.commands, hv]
  exact ⟨rfl, rfl, rfl⟩

theorem assemble_param (hn : n.selector = .ok sel) (hv : v.word = .ok w) :
    assemble (.param n v) = .ok [commandWord 0x03#8 0#16 sel, w] := by
  have hline : (AsmLine.param n v).commands = .ok [paramCommand sel w] := by simp only [AsmLine.commands, hn, hv]
  rw [assemble_of_command hline, encode_paramCommand]

theorem assemble_param_operand_error (hn : n.selector = .ok sel) (hv : v.word = .error e) :
    assemble (.param n v) = .error e :=
  assemble_of_reject (by simp only [AsmLine.commands, hn, hv])

/-- The index of PARAM is looked at before its operand. -/
theorem assemble_param_index_error (hn : n.selector = .error e) (v : AsmNumber) : assemble (.param n v) = .error e :=
  assemble_of_reject (by simp only [AsmLine.commands, hn])

theorem assemble_rdReg_number (hn : n.selector = .ok sel) :
    assemble (.rdReg (.number n)) = .ok [commandWord 0x06#8 0#16 sel] :=
  assemble_of_command (i := .rdReg sel) (by simp only [AsmLine.commands, hn]; rfl)

theorem assemble_rdReg_number_error (hn : n.selector = .error e) : assemble (.rdReg (.number n)) = .error e :=
  assemble_of_reject (by simp only [AsmLine.commands, hn]; rfl)

theorem assemble_rdReg_name (r : Reg) : assemble (.rdReg (.name r)) = .ok [commandWord 0x06#8 0#16 r.sel] :=
  assemble_of_command (i := .rdReg r.sel) rfl

end

/-- The selects of R30 are those the registers have. -/
theorem sel_mem_selectMap (r : Reg) : (r.sel, r) ∈ selectMap := by cases r <;> decide

/-- Settles O7: the numbers in range and out of range, each through the lines that take them. -/
theorem assemblerTakesExactlyTheRange : Obligations.AssemblerTakesExactlyTheRange := by
  refine ⟨fun v hv => ?_, fun v hv => ?_, fun n hn => ?_, fun n hn => ?_, fun r => ?_⟩
  · obtain ⟨w, hw, hword⟩ := AsmNumber.word_of_isOperand hv
    obtain ⟨htime, hdepth, hsample⟩ := assemble_operand hword
    refine ⟨w, hw, htime, hdepth, hsample, fun n hn => ?_⟩
    obtain ⟨sel, hsel, hselector⟩ := AsmNumber.selector_of_isSelector hn
    exact ⟨sel, _, hsel, commandWord_toNat 0x03#8 sel, assemble_param hselector hword⟩
  · have hword := AsmNumber.word_of_not_isOperand hv
    obtain ⟨htime, hdepth, hsample⟩ := assemble_operand_error hword
    refine ⟨htime, hdepth, hsample, fun n hn => ?_⟩
    obtain ⟨sel, -, hselector⟩ := AsmNumber.selector_of_isSelector hn
    exact assemble_param_operand_error hselector hword
  · obtain ⟨sel, hsel, hselector⟩ := AsmNumber.selector_of_isSelector hn
    exact ⟨sel, _, hsel, commandWord_toNat 0x06#8 sel, assemble_rdReg_number hselector⟩
  · have hselector := AsmNumber.selector_of_not_isSelector hn
    exact ⟨assemble_rdReg_number_error hselector, assemble_param_index_error hselector⟩
  · exact ⟨r.sel, _, sel_mem_selectMap r, commandWord_toNat 0x06#8 r.sel, assemble_rdReg_name r⟩

end Sys2Proof.Machine

/-! # The parameter family: the parameter store and its derived values (41_parameter.md) -/

namespace Sys2Proof.Machine

/-! ## PARAM (R131 to R133) -/

/-- A clamped operand is kept whole by the register it is written to (R131, R132). -/
theorem wordOf_clipQ31_toNat (v : Word) : ((wordOf (clipQ31 v)).toNat : Int) = max v.toInt 0 := by
  obtain ⟨h₀, h₁⟩ := clipQ31_range v
  rw [wordOf_toNat h₀ (by omega)]
  rfl

/-- What a clamped operand does when it is stored: the register holds it, and nothing else changes. -/
theorem put_clipQ31_effect (v : Word) (s : State) (q : Reg) :
    (s.put q (clipQ31 v)).read q = max v.toInt 0 ∧ (s.put q (clipQ31 v)).written q = true ∧
    RegsKept [q] s (s.put q (clipQ31 v)) ∧ PortsKeptBut [] s (s.put q (clipQ31 v)) ∧
    (s.put q (clipQ31 v)).uninit = s.uninit := by
  refine ⟨?_, by simp, fun r hr => ?_, by simp [PortsKeptBut], rfl⟩
  · rw [State.read_put, if_pos rfl, wordOf_clipQ31_toNat]
  · rw [List.mem_singleton] at hr
    simp [hr]

/-- Settles O11: SETTIME is the store of its clamped operand. -/
theorem setTimeStoresClampedTime : Obligations.SetTimeStoresClampedTime :=
  fun v s => ⟨_, exec_setTime s v, put_clipQ31_effect v s .pTime⟩

/-- Settles O12: SETDEPTH is the store of its clamped operand. -/
theorem setDepthStoresClampedDepth : Obligations.SetDepthStoresClampedDepth :=
  fun v s => ⟨_, exec_setDepth s v, put_clipQ31_effect v s .pDepth⟩

/-- A PARAM with a selector from 2 is read as the ignored command, whatever `RSV` is (R133). -/
theorem decode_paramIgnored {sel : BitVec 8} (h : 2 ≤ sel.toNat) (rsv : BitVec 16) (v : Word) (rest : List Word) :
    decode (commandWord 0x03#8 rsv sel :: v :: rest) = .ok (.paramIgnored sel v, rest) :=
  decode_commandWord_operand (opc := 0x03#8) rfl (decodeParam_ignored v h) rsv rest

/-- Settles O13: the command's meaning is to do nothing, and a step on its two words runs that meaning. -/
theorem ignoredParamConsumesOperandOnly : Obligations.IgnoredParamConsumesOperandOnly :=
  ⟨fun sel v s => exec_paramIgnored s sel v,
   fun rsv _ v rest s h => step_cmdIn_of_decode_ok (decode_paramIgnored h rsv v rest) s⟩

/-! ## BLOCK (R134, R135, R138) -/

section
variable {s t : State}

theorem exec_block_get_pTimerInc (h : exec .block s = .next t) : t.get .pTimerInc = Config.hw.rateInc (s.get .pTime) := by
  obtain rfl : t = _ := exec_cases h
  simp

theorem exec_block_get_lfoDt (h : exec .block s = .next t) : t.get .lfoDt = Config.hw.rateInc (s.get .pTime) := by
  obtain rfl : t = _ := exec_cases h
  simp

theorem exec_block_get_pDepthScale (h : exec .block s = .next t) :
    t.get .pDepthScale = Config.hw.depthScale (s.get .pDepth) := by
  obtain rfl : t = _ := exec_cases h
  simp

theorem exec_block_written (h : exec .block s = .next t) :
    ∀ r ∈ [Reg.pTimerInc, .lfoDt, .pDepthScale], t.written r = true := by
  obtain rfl : t = _ := exec_cases h
  simp

theorem exec_block_regsKept (h : exec .block s = .next t) : RegsKept [.pTimerInc, .lfoDt, .pDepthScale] s t := by
  intro r hr
  refine exec_frame h fun hw => hr ?_
  simp only [writesOf, List.mem_cons] at hw ⊢
  tauto

theorem exec_block_portsKept (h : exec .block s = .next t) : PortsKeptBut [] s t := by
  obtain rfl : t = _ := exec_cases h
  simp [PortsKeptBut]

/-- BLOCK records nothing when both parameters are written (R264). -/
theorem exec_block_uninit (h : exec .block s = .next t) (htime : s.written .pTime = true)
    (hdepth : s.written .pDepth = true) : t.uninit = s.uninit := by
  simp [exec_uninit h, readsOf, htime, hdepth]

/-- A second BLOCK finds the parameters the first one found, and so derives the same values (R138). -/
theorem exec_block_idempotent {u : State} (h : exec .block s = .next t) (hu : exec .block t = .next u) :
    u.regs = t.regs := by
  refine State.regs_ext fun r => ?_
  by_cases hr : r ∈ [Reg.pTimerInc, .lfoDt, .pDepthScale]
  · have htime : t.get .pTime = s.get .pTime := (exec_block_regsKept h _ (by decide)).1
    have hdepth : t.get .pDepth = s.get .pDepth := (exec_block_regsKept h _ (by decide)).1
    simp only [List.mem_cons, List.not_mem_nil, or_false] at hr
    obtain rfl | rfl | rfl := hr
    · rw [exec_block_get_pTimerInc hu, exec_block_get_pTimerInc h, htime]
    · rw [exec_block_get_lfoDt hu, exec_block_get_lfoDt h, htime]
    · rw [exec_block_get_pDepthScale hu, exec_block_get_pDepthScale h, hdepth]
  · exact (exec_block_regsKept hu r hr).1

end

/-- Settles O14: BLOCK's writes, its frame, and its parameters being among what it keeps. -/
theorem blockDerivesParameters : Obligations.BlockDerivesParameters := fun s =>
  have h := exec_block s
  ⟨_, h, exec_block_get_pTimerInc h, exec_block_get_lfoDt h, exec_block_get_pDepthScale h, exec_block_written h,
    exec_block_regsKept h, exec_block_portsKept h, exec_block_uninit h, fun _ => exec_block_idempotent h⟩

/-- The increment BLOCK leaves lies in 1 to 2^30 - 2^22 (R134 (a), (b)). -/
theorem exec_block_lfoDt_range {s t : State} (h : exec .block s = .next t) (htime : s.read .pTime < 2147483648) :
    1 ≤ t.read .lfoDt ∧ t.read .lfoDt ≤ 1073741824 - 4194304 := by
  have hrange : 1 ≤ (Config.hw.rateInc (s.get .pTime)).toNat ∧ (Config.hw.rateInc (s.get .pTime)).toNat ≤ 1069547520 :=
    Config.hw_contract.rateInc_range _ (Int.ofNat_lt.1 htime)
  rw [State.read, exec_block_get_lfoDt h]
  omega

/-- The depth scale BLOCK leaves lies in 1 to 2^24 (R135 (a), (b)). -/
theorem exec_block_pDepthScale_range {s t : State} (h : exec .block s = .next t) (hdepth : s.read .pDepth < 2147483648) :
    1 ≤ t.read .pDepthScale ∧ t.read .pDepthScale ≤ 16777216 := by
  have hrange : 1 ≤ (Config.hw.depthScale (s.get .pDepth)).toNat ∧
      (Config.hw.depthScale (s.get .pDepth)).toNat ≤ 16777216 :=
    Config.hw_contract.depthScale_range _ (Int.ofNat_lt.1 hdepth)
  rw [State.read, exec_block_get_pDepthScale h]
  omega

/-- Registers are ordered as integers when their words are. -/
theorem State.read_le_read_iff {s t : State} {r q : Reg} : s.read r ≤ t.read q ↔ (s.get r).toNat ≤ (t.get q).toNat :=
  Int.ofNat_le

/-- Settles O15: BLOCK's values are those of the hardware's functions, which meet the contracts of R134 and R135. -/
theorem blockRespectsDerivationContracts : Obligations.BlockRespectsDerivationContracts := by
  intro s s' t t' h h'
  refine ⟨fun htime => ⟨exec_block_lfoDt_range h' htime, fun hle => ?_, fun heq => ?_⟩,
    fun hdepth => ⟨exec_block_pDepthScale_range h' hdepth, fun hle => ?_, fun heq => ?_⟩⟩
  · rw [State.read_le_read_iff, exec_block_get_lfoDt h, exec_block_get_lfoDt h']
    exact Config.hw_contract.rateInc_anti _ _ (State.read_le_read_iff.1 hle) (Int.ofNat_lt.1 htime)
  · simp only [State.read, exec_block_get_lfoDt h, exec_block_get_lfoDt h', State.get_eq_of_read_eq heq]
  · rw [State.read_le_read_iff, exec_block_get_pDepthScale h, exec_block_get_pDepthScale h']
    exact Config.hw_contract.depthScale_mono _ _ (State.read_le_read_iff.1 hle) (Int.ofNat_lt.1 hdepth)
  · simp only [State.read, exec_block_get_pDepthScale h, exec_block_get_pDepthScale h', State.get_eq_of_read_eq heq]

/-! ## A PARAM between BLOCKs (R137) -/

/-- States that agree on every register but the two parameters, on the events so far and on the delay line's next answer. -/
def AgreeOffParameters (s p : State) : Prop :=
  (∀ r : Reg, r ≠ .pTime → r ≠ .pDepth → p.get r = s.get r) ∧ p.events = s.events ∧ p.dlAnswer = s.dlAnswer

section
variable {s p : State}

theorem agreeOffParameters_put {q : Reg} (hq : q = .pTime ∨ q = .pDepth) (v : Int) : AgreeOffParameters s (s.put q v) := by
  refine ⟨fun r htime hdepth => ?_, rfl, rfl⟩
  have hr : r ≠ q := by
    rintro rfl
    exact hq.elim htime hdepth
  rw [State.get_put, if_neg hr]

/-- An LFO step reads no parameter (R150). -/
theorem lfoStep_get_of_agree (h : AgreeOffParameters s p) {r : Reg} (htime : r ≠ .pTime) (hdepth : r ≠ .pDepth) :
    (lfoStep p).get r = (lfoStep s).get r := by
  obtain ⟨hget, -, -⟩ := h
  have hread : ∀ q : Reg, q ≠ .pTime → q ≠ .pDepth → p.read q = s.read q := fun q hq hq' => by
    simp only [State.read, hget q hq hq']
  have hphase : phase p = phase s := by simp [phase, hget]
  have hidx : tableIndex p = tableIndex s := by simp only [tableIndex, hphase]
  have hlevel : newLevel p = newLevel s := by simp [newLevel, hread, hidx]
  have hadvance : ∀ q : Reg, q ≠ .pTime → q ≠ .pDepth → (lfoAdvance p).get q = (lfoAdvance s).get q := fun q hq hq' => by
    simp [lfoAdvance_get, keptPhase, keptLevel, Crosses, hphase, hidx, hlevel, hread, hget q hq hq']
  have hfold : folded (lfoAdvance p) = folded (lfoAdvance s) := by simp [folded, State.read, hadvance]
  rw [lfoStep_get, lfoStep_get, hfold, hadvance r htime hdepth]

/-- SAMPLE reads no parameter: from states that agree off them it leaves the same port events and the same registers off
them (R210). -/
theorem exec_sample_of_agree {x : Word} {t u : State} (h : AgreeOffParameters s p) (ht : exec (.sample x) s = .next t)
    (hu : exec (.sample x) p = .next u) :
    u.events = t.events ∧ ∀ r : Reg, r ≠ .pTime → r ≠ .pDepth → u.get r = t.get r := by
  obtain rfl : t = _ := exec_cases ht
  obtain rfl : u = _ := exec_cases hu
  have hlfo : ∀ r : Reg, r ≠ .pTime → r ≠ .pDepth → (lfoStep p).get r = (lfoStep s).get r := fun _ => lfoStep_get_of_agree h
  obtain ⟨hget, hevents, hanswer⟩ := h
  have hgain : p.read .gInputGain = s.read .gInputGain := by simp [State.read, hget]
  have hoffset : offset (lfoStep p) = offset (lfoStep s) := by simp [offset, State.read, hlfo]
  refine ⟨?_, fun r htime hdepth => ?_⟩
  · simp only [sampleFrame_events, hevents, hanswer, hoffset, hgain]
  · rw [sampleFrame_get, sampleFrame_get, hgain, hlfo r htime hdepth]

end

/-- Settles O16: a PARAM leaves a state that agrees with the one it found off the parameters, which SAMPLE does not read. -/
theorem parameterChangeWaitsForBlock : Obligations.ParameterChangeWaitsForBlock := by
  intro v x s p t u hp ht hu
  have hagree : AgreeOffParameters s p := by
    obtain hp | hp := hp
    · obtain rfl : p = _ := exec_cases hp
      exact agreeOffParameters_put (.inl rfl) _
    · obtain rfl : p = _ := exec_cases hp
      exact agreeOffParameters_put (.inr rfl) _
  obtain ⟨hevents, hregs⟩ := exec_sample_of_agree hagree ht hu
  exact ⟨hevents, hregs, hagree.1 _ (by decide) (by decide), hagree.1 _ (by decide) (by decide),
    hagree.1 _ (by decide) (by decide)⟩

/-! ## The phase after a BLOCK (R139) -/

section
variable {s t : State}

/-- BLOCK sets the rate, in both increment registers (R138, R139). -/
theorem exec_block_rateSet (hs : s.AllInRange) (h : exec .block s = .next t) :
    t.RateSet ∧ 1 ≤ t.read .pTimerInc ∧ t.read .lfoDt = t.read .pTimerInc := by
  obtain ⟨hpos, hmax⟩ := exec_block_lfoDt_range h ((inRange_iff_admits s .pTime).1 (hs .pTime))
  have hsame : t.read .lfoDt = t.read .pTimerInc := by
    simp only [State.read, exec_block_get_lfoDt h, exec_block_get_pTimerInc h]
  exact ⟨⟨exec_keeps_allInRange hs h, hpos, hmax⟩, hsame ▸ hpos, hsame⟩

/-- BLOCK and INIT alone write the increment, and BLOCK sets it anew (R30, R139). -/
theorem exec_keeps_rateSet {i : Instr} (hi : i ≠ .init) (hs : s.RateSet) (h : exec i s = .next t) : t.RateSet := by
  obtain ⟨hrange, hpos, hmax⟩ := hs
  cases i with
  | init => exact absurd rfl hi
  | block => exact (exec_block_rateSet hrange h).1
  | _ =>
    have hdt : t.read .lfoDt = s.read .lfoDt := exec_frame_read h (by simp [writesOf])
    exact ⟨exec_keeps_allInRange hrange h, hdt ▸ hpos, hdt ▸ hmax⟩

/-- The phase a SAMPLE leaves. -/
theorem exec_sample_read_lfoT {x : Word} (h : exec (.sample x) s = .next t) : t.read .lfoT = keptPhase s := by
  obtain rfl : t = _ := exec_cases h
  rw [sampleFrame_read, if_neg (by decide), lfoStep_read_of_ne (by decide), lfoAdvance_read_lfoT]

/-- With an increment a rate function may give, the advanced phase does not wrap: a SAMPLE raises the accumulated phase by the
whole increment (R157). -/
theorem exec_sample_phase_advance {x : Word} (hT : s.read .lfoT < 4194304) (hdt : s.read .lfoDt ≤ 1073741824 - 4194304)
    (h : exec (.sample x) s = .next t) :
    4194304 * (tableIndex s : Int) + t.read .lfoT = s.read .lfoT + s.read .lfoDt := by
  have hsplit := phase_split s
  have hphase := phase_eq s
  have hT₀ := s.read_nonneg .lfoT
  have hdt₀ := s.read_nonneg .lfoDt
  rw [exec_sample_read_lfoT h]
  omega

end

/-- Settles O34: BLOCK sets the rate, every command but INIT keeps it set, and a SAMPLE advances by it. -/
theorem phaseAdvancesAfterBlock : Obligations.PhaseAdvancesAfterBlock := by
  refine ⟨fun _ _ => exec_block_rateSet, fun _ _ _ => exec_keeps_rateSet, fun x s t hs h => ?_⟩
  obtain ⟨hrange, hpos, hmax⟩ := hs
  have hadvance := exec_sample_phase_advance ((inRange_iff_admits s .lfoT).1 (hrange .lfoT)) hmax h
  omega

end Sys2Proof.Machine

namespace Sys2Proof

/-! ## The reference functions: contracts (R134 to R136) -/

namespace Config

variable {fs τ τ' δ δ' n : Nat}

theorem rateIncAtMost_anti (h : τ ≤ τ') (hn : rateIncAtMost fs τ' n) : rateIncAtMost fs τ n :=
  hn.trans (Nat.pow_le_pow_right two_pos (by omega))

theorem depthScaleAtMost_mono (h : δ ≤ δ') (hn : depthScaleAtMost δ n) : depthScaleAtMost δ' n :=
  hn.trans (Nat.pow_le_pow_right two_pos (by omega))

theorem rateIncRef_anti (fs : Nat) (h : τ ≤ τ') : rateIncRef fs τ' ≤ rateIncRef fs τ :=
  max_le_max_right 1 (Nat.findGreatest_mono_left (fun _ => rateIncAtMost_anti h) _)

theorem depthScaleRef_mono (h : δ ≤ δ') : depthScaleRef δ ≤ depthScaleRef δ' :=
  max_le_max_right 1 (Nat.findGreatest_mono_left (fun _ => depthScaleAtMost_mono h) _)

theorem rateIncRef_range (fs τ : Nat) : 1 ≤ rateIncRef fs τ ∧ rateIncRef fs τ ≤ 1069547520 :=
  ⟨le_max_right _ _, max_le (Nat.findGreatest_le _) (by decide)⟩

theorem depthScaleRef_range (δ : Nat) : 1 ≤ depthScaleRef δ ∧ depthScaleRef δ ≤ 16777216 :=
  ⟨le_max_right _ _, max_le (Nat.findGreatest_le _) (by decide)⟩

end Config

/-! ## The reference functions: values (R136)

The exponents of R136 share a large factor `m`; the roots of that degree compare powers small enough to compute. -/

section
variable {a K k m e E : Nat}

theorem pow_le_two_pow_of_root (hK : K = k * m) (he : e * m ≤ E) (h : a ^ k ≤ 2 ^ e) : a ^ K ≤ 2 ^ E :=
  calc a ^ K = (a ^ k) ^ m := by rw [hK, pow_mul]
    _ ≤ (2 ^ e) ^ m := Nat.pow_le_pow_left h m
    _ = 2 ^ (e * m) := (pow_mul 2 e m).symm
    _ ≤ 2 ^ E := Nat.pow_le_pow_right two_pos he

theorem two_pow_lt_pow_of_root (hK : K = k * m) (hm : m ≠ 0) (he : E ≤ e * m) (h : 2 ^ e < a ^ k) : 2 ^ E < a ^ K :=
  calc 2 ^ E ≤ 2 ^ (e * m) := Nat.pow_le_pow_right two_pos he
    _ = (2 ^ e) ^ m := pow_mul 2 e m
    _ < (a ^ k) ^ m := Nat.pow_lt_pow_left h hm
    _ = a ^ K := by rw [hK, pow_mul]

end

/-- The greatest number that passes a test which every smaller number passes too is the last one before the test fails. -/
theorem findGreatest_eq_of_succ_fails {P : Nat → Prop} [DecidablePred P] {n bound : Nat} (hbound : n ≤ bound)
    (hdown : ∀ a b : Nat, a ≤ b → P b → P a) (hpass : P n) (hfail : ¬P (n + 1)) : Nat.findGreatest P bound = n :=
  Nat.findGreatest_eq_iff.2 ⟨hbound, fun _ => hpass, fun _ hlt _ hP => hfail (hdown _ _ hlt hP)⟩

/-- Bernoulli's inequality: `(1 + 1/b)^n` is at least 2 from the exponent `b` on. -/
theorem two_mul_pow_le_succ_pow {b n : Nat} (hb : 0 < b) (hn : b ≤ n) : 2 * b ^ n ≤ (b + 1) ^ n := by
  have hb' : (0 : ℚ) < b := by exact_mod_cast hb
  have hn' : (b : ℚ) ≤ n := by exact_mod_cast hn
  have hbernoulli : (2 : ℚ) ≤ (1 + 1 / b) ^ n :=
    calc (2 : ℚ) ≤ 1 + n * (1 / b) := by rw [mul_one_div]; linarith [(one_le_div hb').2 hn']
      _ ≤ (1 + 1 / b) ^ n := one_add_mul_le_pow (by linarith [one_div_pos.2 hb']) n
  have hcast : (2 : ℚ) * b ^ n ≤ (b + 1) ^ n :=
    calc (2 : ℚ) * b ^ n ≤ (1 + 1 / b) ^ n * b ^ n := mul_le_mul_of_nonneg_right hbernoulli (by positivity)
      _ = (b + 1) ^ n := by rw [← mul_pow, add_mul, one_mul, one_div_mul_cancel hb'.ne', add_comm]
  exact_mod_cast hcast

/-- One below a power of two: from the exponent `2^p` on, the power falls short by a factor of two. -/
theorem pow_le_two_pow_pred {b p n : Nat} (hb : b + 1 = 2 ^ p) (hb₀ : 0 < b) (hn : b ≤ n) : b ^ n ≤ 2 ^ (p * n - 1) := by
  have hp : p ≠ 0 := by
    rintro rfl
    omega
  have hdouble : 2 * b ^ n ≤ 2 * 2 ^ (p * n - 1) :=
    calc 2 * b ^ n ≤ (b + 1) ^ n := two_mul_pow_le_succ_pow hb₀ hn
      _ = 2 ^ (p * n) := by rw [hb, pow_mul]
      _ = 2 * 2 ^ (p * n - 1) := (mul_pow_sub_one (Nat.mul_ne_zero hp (by omega)) 2).symm
  omega

namespace Config

/-- A value of the reference rate, by powers `m` times smaller than those of R136. -/
theorem rateIncRef_eq {fs τ n : Nat} (k m e e' : Nat) (hpos : 1 ≤ n) (hmax : n ≤ 1069547520) (hm : m ≠ 0)
    (hk : 5 * 2147483648 = k * m) (he : e * m ≤ 170 * 2147483648 - 41 * τ) (he' : 170 * 2147483648 - 41 * τ ≤ e' * m)
    (hpass : (n * fs) ^ k ≤ 2 ^ e) (hfail : 2 ^ e' < ((n + 1) * fs) ^ k) : rateIncRef fs τ = n := by
  have hgreatest : Nat.findGreatest (rateIncAtMost fs τ) INC_MAX = n :=
    findGreatest_eq_of_succ_fails hmax
      (fun a b hab => (pow_le_pow_left' (Nat.mul_le_mul_right fs hab) (5 * 2147483648)).trans)
      (pow_le_two_pow_of_root hk he hpass) (not_le.2 (two_pow_lt_pow_of_root hk hm he' hfail))
  rw [rateIncRef, hgreatest, max_eq_left hpos]

/-- A value of the reference depth scale, by powers `m` times smaller than those of R136. -/
theorem depthScaleRef_eq {δ n : Nat} (k m e e' : Nat) (hpos : 1 ≤ n) (hmax : n ≤ 16777216) (hm : m ≠ 0)
    (hk : 2147483648 = k * m) (he : e * m ≤ 14 * 2147483648 + 5 * δ) (he' : 14 * 2147483648 + 5 * δ ≤ e' * m)
    (hpass : (2 * n - 1) ^ k ≤ 2 ^ e) (hfail : 2 ^ e' < (2 * (n + 1) - 1) ^ k) : depthScaleRef δ = n := by
  have hgreatest : Nat.findGreatest (depthScaleAtMost δ) ONE = n :=
    findGreatest_eq_of_succ_fails hmax
      (fun a b hab => (pow_le_pow_left' (show 2 * a - 1 ≤ 2 * b - 1 by omega) 2147483648).trans)
      (pow_le_two_pow_of_root hk he hpass) (not_le.2 (two_pow_lt_pow_of_root hk hm he' hfail))
  rw [depthScaleRef, hgreatest, max_eq_left hpos]

/-- The rows of R136's table at a multiple of 2^28: the common factor of the exponents is 2^28. -/
theorem rateIncRef_multiple {fs n : Nat} (j : Nat) (h : 1 ≤ n ∧ n ≤ 1069547520 ∧
    (n * fs) ^ 40 ≤ 2 ^ (1360 - 41 * j) ∧ 2 ^ (1360 - 41 * j) < ((n + 1) * fs) ^ 40) :
    rateIncRef fs (268435456 * j) = n := by
  obtain ⟨hpos, hmax, hpass, hfail⟩ := h
  exact rateIncRef_eq 40 268435456 _ _ hpos hmax (by decide) (by norm_num) (by omega) (by omega) hpass hfail

theorem depthScaleRef_multiple {n : Nat} (j : Nat) (h : 1 ≤ n ∧ n ≤ 16777216 ∧
    (2 * n - 1) ^ 8 ≤ 2 ^ (112 + 5 * j) ∧ 2 ^ (112 + 5 * j) < (2 * (n + 1) - 1) ^ 8) :
    depthScaleRef (268435456 * j) = n := by
  obtain ⟨hpos, hmax, hpass, hfail⟩ := h
  exact depthScaleRef_eq 8 268435456 _ _ hpos hmax (by decide) (by norm_num) (by omega) (by omega) hpass hfail

/-- The last row of R136's rate table, at `2^31 - 1`. -/
theorem rateIncRef_last : rateIncRef 48000 0x7FFFFFFF = 1217 :=
  rateIncRef_eq 1280 8388608 33024 33025 (by decide) (by decide) (by decide) (by norm_num) (by norm_num) (by norm_num)
    (by decide +kernel) (by decide +kernel)

/-- The last row of R136's depth table, at `2^31 - 1`: the exact value `2^18 * 2^(-5/2^31)` is above `2^18 - 1/2`. -/
theorem depthScaleRef_last : depthScaleRef 0x7FFFFFFF = 262144 :=
  depthScaleRef_eq 524288 4096 (19 * 524288 - 1) (19 * 524288) (by decide) (by decide) (by decide) (by norm_num)
    (by norm_num) (by norm_num) (pow_le_two_pow_pred (by norm_num) (by decide) (by decide))
    (two_pow_lt_pow_of_root (k := 1) (e := 19) (by norm_num) (by decide) le_rfl (by norm_num))

theorem rateIncRef_table : [0, 0x10000000, 0x20000000, 0x40000000, 0x60000000, 0x7FFFFFFF].map (rateIncRef 48000) =
    [357913, 175882, 86430, 20871, 5040, 1217] := by
  have h₀ : rateIncRef 48000 0 = 357913 := rateIncRef_multiple 0 (by decide +kernel)
  have h₁ : rateIncRef 48000 0x10000000 = 175882 := rateIncRef_multiple 1 (by decide +kernel)
  have h₂ : rateIncRef 48000 0x20000000 = 86430 := rateIncRef_multiple 2 (by decide +kernel)
  have h₄ : rateIncRef 48000 0x40000000 = 20871 := rateIncRef_multiple 4 (by decide +kernel)
  have h₆ : rateIncRef 48000 0x60000000 = 5040 := rateIncRef_multiple 6 (by decide +kernel)
  simp only [List.map_cons, List.map_nil, h₀, h₁, h₂, h₄, h₆, rateIncRef_last]

theorem depthScaleRef_table : [0, 0x10000000, 0x20000000, 0x40000000, 0x60000000, 0x7FFFFFFF].map depthScaleRef =
    [8192, 12634, 19484, 46341, 110218, 262144] := by
  have h₀ : depthScaleRef 0 = 8192 := depthScaleRef_multiple 0 (by decide +kernel)
  have h₁ : depthScaleRef 0x10000000 = 12634 := depthScaleRef_multiple 1 (by decide +kernel)
  have h₂ : depthScaleRef 0x20000000 = 19484 := depthScaleRef_multiple 2 (by decide +kernel)
  have h₄ : depthScaleRef 0x40000000 = 46341 := depthScaleRef_multiple 4 (by decide +kernel)
  have h₆ : depthScaleRef 0x60000000 = 110218 := depthScaleRef_multiple 6 (by decide +kernel)
  simp only [List.map_cons, List.map_nil, h₀, h₁, h₂, h₄, h₆, depthScaleRef_last]

end Config

/-- Settles O42: the clamps and the search bound give the ranges, the exponents the order, and each row of R136's table is
settled by two comparisons of powers. -/
theorem referenceDerivationsMeetContract : Obligations.ReferenceDerivationsMeetContract := by
  refine ⟨fun fs τ τ' hle _ => ?_, Config.rateIncRef_table, Config.depthScaleRef_table⟩
  obtain ⟨hrate, hrate'⟩ := Config.rateIncRef_range fs τ
  obtain ⟨hscale, hscale'⟩ := Config.depthScaleRef_range τ
  exact ⟨hrate, hrate', Config.rateIncRef_anti fs hle, hscale, hscale', Config.depthScaleRef_mono hle⟩

end Sys2Proof

/-! # The LFO family: what a SAMPLE does to the LFO's registers (42_lfo.md) -/

namespace Sys2Proof.Machine

/-! ## The level (R154) -/

/-- The product of an update fits 32 bits (R154). -/
theorem approach_product_lt {level : Int} {idx : Nat} (h₀ : 0 ≤ level) (hi : 1 ≤ idx) (hi' : idx ≤ 255) :
    (65536 - level) * (lfoTable idx : Int) < 4294967296 := by
  obtain ⟨-, hhi⟩ := lfoTable_range idx (by omega) hi
  calc (65536 - level) * (lfoTable idx : Int) ≤ 65536 * (lfoTable idx : Int) :=
        mul_le_mul_of_nonneg_right (by omega) (by omega)
    _ < 4294967296 := by omega

/-- Settles O32: the bounds of one update, from those of the table's entries. -/
theorem levelStrictlyRises : Obligations.LevelStrictlyRises := by
  intro level idx h₀ h₁ hi hi'
  obtain ⟨hrise, hmax⟩ := approach_bounds h₀ h₁ hi hi'
  exact ⟨hrise, hmax, approach_eq level idx, approach_product_lt h₀ hi hi', fun _ => by omega⟩

/-! ## The LFO's registers after a SAMPLE (R150 to R158) -/

section
variable {s t : State} {x : Word}

/-- A SAMPLE leaves the registers its LFO step leaves, but for the gain (R210). -/
theorem exec_sample_read_of_ne {r : Reg} (hr : r ≠ .gInputGain) (h : exec (.sample x) s = .next t) :
    t.read r = (lfoStep s).read r := by
  obtain rfl : t = _ := exec_cases h
  rw [sampleFrame_read, if_neg hr]

/-- The direction is inverted at a crossing and kept otherwise (R155, R159). -/
theorem exec_sample_read_lfoDir (hdir : s.read .lfoDir ≤ 1) (h : exec (.sample x) s = .next t) :
    t.read .lfoDir = if Crosses s then 1 - s.read .lfoDir else s.read .lfoDir := by
  have hdir₀ := s.read_nonneg .lfoDir
  have hget : (lfoAdvance s).get .lfoDir = if Crosses s then wordOf (1 - s.read .lfoDir) else s.get .lfoDir := by
    simp [lfoAdvance_get]
  rw [exec_sample_read_of_ne (by decide) h, lfoStep_read_of_ne (by decide), State.read, hget]
  split_ifs
  · exact wordOf_toNat (by omega) (by omega)
  · rfl

/-- The level follows a nonzero index only (R153 to R155). -/
theorem exec_sample_read_lfoOut (hth : s.read .lfoTh = 32768) (hout : s.read .lfoOut ≤ 32767)
    (h : exec (.sample x) s = .next t) :
    t.read .lfoOut = if tableIndex s = 0 then s.read .lfoOut else keptLevel s := by
  rw [exec_sample_read_of_ne (by decide) h, lfoStep_read_of_ne (by decide), State.read, lfoAdvance_get]
  by_cases hidx : tableIndex s = 0
  · simp [hidx, State.read]
  · obtain ⟨h₀, h₁⟩ := keptLevel_range hth hout hidx
    simpa [hidx] using wordOf_toNat h₀ (by omega)

/-- The fold a SAMPLE leaves is that of the level and direction it leaves (R156). -/
theorem exec_sample_read_lfoOut2 (hth : s.read .lfoTh = 32768) (hout : s.read .lfoOut ≤ 32767)
    (h : exec (.sample x) s = .next t) : t.read .lfoOut2 = folded t := by
  have hlfo : ∀ r : Reg, r ≠ .gInputGain → t.read r = (lfoStep s).read r := fun _ hr => exec_sample_read_of_ne hr h
  simpa [folded, hlfo] using lfoStep_lfoOut2_eq_folded hth hout

theorem exec_sample_keeps_lfoTh (h : exec (.sample x) s = .next t) : t.read .lfoTh = s.read .lfoTh :=
  exec_frame_read h (by simp [writesOf])

end

/-! ## LFO_STEP in the terms of R150 to R158 -/

section
variable (s : State)

/-- The level an index reaches, as R154 spells it out. -/
theorem newLevel_eq : newLevel s = 65536 - (65536 - s.read .lfoOut) * (lfoTable (tableIndex s) : Int) / 65536 :=
  approach_eq _ _

/-- The kept phase as R153 and R158 give it. -/
theorem keptPhase_eq :
    (keptPhase s : Int) = if tableIndex s = 0 then (phase s : Int) else (phase s : Int) % 4194304 := by
  unfold keptPhase
  split_ifs <;> rfl

end

/-- Settles O30: each register SAMPLE leaves, by whether the step consumes a table step and whether its level crosses. -/
theorem sampleStepsLfo : Obligations.SampleStepsLfo := by
  intro x s hs
  obtain ⟨t, h⟩ : ∃ t, exec (.sample x) s = .next t := ⟨_, exec_sample s x⟩
  have hth := (inRange_iff_admits s .lfoTh).1 (hs _)
  have hout := (inRange_iff_admits s .lfoOut).1 (hs _)
  have hT := exec_sample_read_lfoT h
  have hOut := exec_sample_read_lfoOut hth hout h
  have hDir := exec_sample_read_lfoDir ((inRange_iff_admits s .lfoDir).1 (hs _)) h
  have hfold := exec_sample_read_lfoOut2 hth hout h
  refine ⟨t, h, ?_, ?_⟩
  · rw [tableIndex_eq, ← phase_eq, Int.toNat_natCast, ← newLevel_eq]
    rw [keptPhase_eq] at hT
    by_cases hidx : tableIndex s = 0
    · rw [if_pos hidx] at hT hOut
      rw [if_neg fun hcross => hcross.1 hidx] at hDir
      rw [if_pos (by omega)]
      exact ⟨hT, hOut, hDir⟩
    · rw [if_neg hidx] at hT hOut
      rw [if_neg (by omega)]
      refine ⟨hT, ?_⟩
      by_cases hc : s.read .lfoTh ≤ newLevel s
      · rw [if_pos ⟨hidx, hc⟩] at hDir
        rw [keptLevel, if_pos hc] at hOut
        rw [if_pos hc]
        exact ⟨hDir, hOut⟩
      · rw [if_neg fun hcross => hc hcross.2] at hDir
        rw [keptLevel, if_neg hc] at hOut
        rw [if_neg hc]
        exact ⟨hDir, hOut⟩
  · rw [hfold, folded, fold, exec_sample_keeps_lfoTh h]

/-! ## The phase (R157) -/

/-- A whole turn leaves the phase where it was and consumes no table step (R32). -/
theorem phase_of_whole_turn {s : State} (hT : s.read .lfoT < 4194304) (hdt : s.read .lfoDt = 1073741824) :
    tableIndex s = 0 ∧ (keptPhase s : Int) = s.read .lfoT := by
  have hphase := phase_eq s
  have hsplit := phase_split s
  have hkept := keptPhase_lt s
  have hT₀ := s.read_nonneg .lfoT
  omega

/-- Settles O33: an increment a rate function may give, and a whole turn. -/
theorem phaseNeverStalls : Obligations.PhaseNeverStalls := by
  intro x s hs
  have h := exec_sample s x
  have hT := (inRange_iff_admits s .lfoT).1 (hs _)
  refine ⟨_, h, fun hdt => exec_sample_phase_advance hT hdt h, fun hdt => ?_⟩
  rw [exec_sample_read_lfoT h]
  exact phase_of_whole_turn hT hdt

/-! ## The direction (R159) -/

/-- Only INIT and SAMPLE write the direction (R30, R159). -/
theorem lfoDir_not_mem_writesOf {i : Instr} (hsample : ∀ x : Word, i ≠ .sample x) (hinit : i ≠ .init) :
    Reg.lfoDir ∉ writesOf i := by
  cases i with
  | init => exact absurd rfl hinit
  | sample x => exact absurd rfl (hsample x)
  | _ => simp [writesOf]

/-- Settles O35: the two values of the direction differ, so a SAMPLE inverts it exactly at a crossing. -/
theorem directionChangesOnlyAtCrossing : Obligations.DirectionChangesOnlyAtCrossing := by
  intro i s t hs h
  refine ⟨?_, fun hsample hinit => (exec_frame h (lfoDir_not_mem_writesOf hsample hinit)).1⟩
  rintro x rfl
  have hDir := exec_sample_read_lfoDir ((inRange_iff_admits s .lfoDir).1 (hs _)) h
  by_cases hc : Crosses s
  · rw [if_pos hc] at hDir
    exact ⟨iff_of_true hDir hc, iff_of_false (by omega) (not_not_intro hc)⟩
  · rw [if_neg hc] at hDir
    exact ⟨iff_of_false (by omega) hc, iff_of_true hDir hc⟩

/-! ## The laws of R160 -/

section
variable {s t : State}

theorem exec_init_lfoLaws (h : exec .init s = .next t) : t.LfoLaws := by
  obtain rfl : t = _ := exec_cases h
  simp [State.LfoLaws, initWord]

/-- SAMPLE needs no more than the laws themselves to keep them. -/
theorem exec_sample_keeps_lfoLaws {x : Word} (hs : s.LfoLaws) (h : exec (.sample x) s = .next t) : t.LfoLaws := by
  obtain ⟨hth, -, hout, -, hdir⟩ := hs
  have hlfo : ∀ r : Reg, r ≠ .gInputGain → t.read r = (lfoStep s).read r := fun _ hr => exec_sample_read_of_ne hr h
  refine ⟨(exec_sample_keeps_lfoTh h).trans hth, ?_, ?_, ?_, ?_⟩
  · rw [exec_sample_read_lfoT h]
    exact Int.ofNat_lt.2 (keptPhase_lt s)
  · rw [hlfo _ (by decide), lfoStep_read_of_ne (by decide)]
    exact lfoAdvance_read_lfoOut_le hth hout
  · rw [hlfo _ (by decide)]
    exact lfoStep_read_lfoOut2_le hth hout
  · rw [hlfo _ (by decide), lfoStep_read_of_ne (by decide)]
    exact lfoAdvance_read_lfoDir_le hdir

/-- A command that writes none of the five registers the laws speak of keeps them. -/
theorem lfoLaws_of_frame {i : Instr} (hs : s.LfoLaws) (h : exec i s = .next t)
    (hr : ∀ r ∈ [Reg.lfoTh, .lfoT, .lfoOut, .lfoOut2, .lfoDir], r ∉ writesOf i) : t.LfoLaws := by
  simp only [List.forall_mem_cons] at hr
  obtain ⟨hTh, hT, hOut, hOut2, hDir, -⟩ := hr
  simpa only [State.LfoLaws, exec_frame_read h hTh, exec_frame_read h hT, exec_frame_read h hOut,
    exec_frame_read h hOut2, exec_frame_read h hDir] using hs

theorem exec_keeps_lfoLaws {i : Instr} (hs : s.LfoLaws) (h : exec i s = .next t) : t.LfoLaws := by
  cases i with
  | init => exact exec_init_lfoLaws h
  | sample x => exact exec_sample_keeps_lfoLaws hs h
  | _ => exact lfoLaws_of_frame hs h (by simp [writesOf])

/-- A flip by any command but INIT is a crossing: SAMPLE's, at a level at or above the threshold (R160 (d)). -/
theorem crosses_of_flip {i : Instr} (hdir : s.read .lfoDir ≤ 1) (h : exec i s = .next t) (hinit : i ≠ .init)
    (hflip : t.read .lfoDir ≠ s.read .lfoDir) : Crosses s := by
  cases i with
  | init => exact absurd rfl hinit
  | sample x =>
    by_contra hc
    exact hflip ((exec_sample_read_lfoDir hdir h).trans (if_neg hc))
  | _ => exact absurd (exec_frame_read h (by simp [writesOf])) hflip

end

/-- Settles O36: INIT establishes the laws, every command keeps them, and a flip is a crossing. -/
theorem lfoLawsHoldAfterEveryCommand : Obligations.LfoLawsHoldAfterEveryCommand := by
  refine ⟨fun _ _ => exec_init_lfoLaws, fun i s t hs h => ⟨exec_keeps_lfoLaws hs h, fun hinit hflip => ?_⟩⟩
  obtain ⟨-, -, -, -, hdir⟩ := hs
  exact (crosses_of_flip hdir h hinit hflip).2

end Sys2Proof.Machine

/-! # The soft-limiter family: the limiter and its reference curve (43_limiter.md) -/

namespace Sys2Proof

/-! ## The reference curve (R183) -/

namespace Config

variable {k u u' : Nat}

theorem softclipRef_lt (hk : k < 16777216) : softclipRef k u < 16777216 - k := by
  have hM : 0 < 16777216 - k := by omega
  refine Nat.div_lt_of_lt_mul ?_
  rw [add_mul]
  exact Nat.lt_add_of_pos_right (Nat.mul_pos hM hM)

@[simp] theorem softclipRef_zero : softclipRef k 0 = 0 := by simp [softclipRef]

theorem softclipRef_le_self : softclipRef k u ≤ u := by
  refine Nat.div_le_of_le_mul ?_
  rw [mul_comm u]
  exact Nat.mul_le_mul_right u (Nat.le_add_left _ u)

/-- An excess larger by `d` adds `d * M` to the numerator, and only `q * d` to `q` times the denominator: the quotient `q` is
below `M`. -/
theorem softclipRef_mono (hk : k < 16777216) (hu : u ≤ u') : softclipRef k u ≤ softclipRef k u' := by
  obtain ⟨d, rfl⟩ := Nat.exists_eq_add_of_le hu
  have hlt : softclipRef k u < ONE - k := softclipRef_lt hk
  refine (Nat.le_div_iff_mul_le (by omega)).2 ?_
  calc softclipRef k u * (u + d + (ONE - k))
      = softclipRef k u * (u + (ONE - k)) + softclipRef k u * d := by ring
    _ ≤ u * (ONE - k) + (ONE - k) * d := Nat.add_le_add (Nat.div_mul_le_self _ _) (Nat.mul_le_mul_right d hlt.le)
    _ = (u + d) * (ONE - k) := by ring

end Config

/-- Settles O41: the clauses are the curve's own lemmas. -/
theorem referenceSoftclipMeetsContract : Obligations.ReferenceSoftclipMeetsContract :=
  fun _ _ _ hk hu => ⟨rfl, Config.softclipRef_lt hk, Config.softclipRef_zero, Config.softclipRef_mono hk hu,
    Config.softclipRef_le_self⟩

end Sys2Proof

namespace Sys2Proof.Machine

/-! ## The linear region (R184) -/

theorem limThreshold_eq (k c : Nat) : limThreshold k c = (c : Int) - 16777216 + (k : Int) := rfl

/-- Settles O38: the first clause is the linear region, and 0 lies in it for both instances. -/
theorem limiterLinearBelowThreshold : Obligations.LimiterLinearBelowThreshold :=
  ⟨softLimit_linear, by decide, by decide, softLimit_linear Config.hw K_FB C_FB 0 (by decide),
    softLimit_linear Config.hw K_WET C_WET 0 (by decide)⟩

/-! ## The magnitude (R180, R185, R186)

The limiter keeps the sign of its input and maps its magnitude, so its laws are laws of the map of magnitudes. -/

/-- What the limiter makes of the magnitude `a` of its input. -/
def limMagnitude (cfg : Config) (k c a : Nat) : Int :=
  if (a : Int) < limThreshold k c then (a : Int)
  else limThreshold k c + (cfg.softclip k ((a : Int) - limThreshold k c).toNat : Int)

section
variable {cfg : Config} {k c a a' : Nat} {x : Int}

theorem softLimit_eq_limMagnitude : softLimit cfg k x c =
    if x < 0 then -limMagnitude cfg k c x.natAbs else limMagnitude cfg k c x.natAbs := by
  by_cases h : (x.natAbs : Int) < limThreshold k c
  · rw [softLimit_linear cfg k c x h, limMagnitude, if_pos h]
    split_ifs <;> omega
  · rw [softLimit_compressed cfg k c x (not_lt.1 h), limMagnitude, if_neg h]

theorem natAbs_softLimit : (softLimit cfg k x c).natAbs = (limMagnitude cfg k c x.natAbs).natAbs := by
  rw [softLimit_eq_limMagnitude]
  split_ifs
  · exact Int.natAbs_neg _
  · rfl

theorem limMagnitude_linear (h : (a : Int) < limThreshold k c) : limMagnitude cfg k c a = a := if_pos h

theorem limMagnitude_compressed (h : limThreshold k c ≤ (a : Int)) : limMagnitude cfg k c a =
    limThreshold k c + (cfg.softclip k ((a : Int) - limThreshold k c).toNat : Int) := if_neg (not_lt.2 h)

theorem limMagnitude_le_self (hclip : ∀ u : Nat, cfg.softclip k u ≤ u) : limMagnitude cfg k c a ≤ a := by
  by_cases h : (a : Int) < limThreshold k c
  · exact (limMagnitude_linear h).le
  · have := hclip ((a : Int) - limThreshold k c).toNat
    rw [limMagnitude_compressed (not_lt.1 h)]
    omega

end

section
variable {cfg : Config} {k c a a' : Nat} {x : Int} (hcfg : cfg.Contract) (hk : k < 16777216) (hc : 16777216 ≤ c)

include hc in
theorem limThreshold_nonneg : 0 ≤ limThreshold k c := by
  rw [limThreshold_eq]
  omega

include hcfg hk in
/-- The map fixes every magnitude up to the breakpoint, the breakpoint included, where the excess is 0 (R186 (b)). -/
theorem limMagnitude_of_le_threshold (h : (a : Int) ≤ limThreshold k c) : limMagnitude cfg k c a = a := by
  rcases h.lt_or_eq with hlt | heq
  · exact limMagnitude_linear hlt
  · rw [limMagnitude_compressed heq.ge, heq, sub_self, Int.toNat_zero, hcfg.softclip_zero k hk, Nat.cast_zero, add_zero]

include hcfg hk in
theorem softLimit_at_threshold (h : (x.natAbs : Int) = limThreshold k c) : softLimit cfg k x c = x := by
  rw [softLimit_eq_limMagnitude, limMagnitude_of_le_threshold hcfg hk h.le]
  split_ifs <;> omega

include hcfg hk hc

/-- The curve's span `ONE - k` above the threshold `c - ONE + k` ends at the ceiling (R182, R185). -/
theorem limMagnitude_range (h : limThreshold k c ≤ (a : Int)) (ha : a ≤ 2147483648) :
    limThreshold k c ≤ limMagnitude cfg k c a ∧ limMagnitude cfg k c a ≤ (c : Int) := by
  have hthr : 0 ≤ limThreshold k c := limThreshold_nonneg hc
  have hclip : cfg.softclip k ((a : Int) - limThreshold k c).toNat ≤ 16777216 - k :=
    hcfg.softclip_range k _ hk (by omega)
  rw [limMagnitude_compressed h]
  rw [limThreshold_eq] at *
  omega

theorem limMagnitude_nonneg (ha : a ≤ 2147483648) : 0 ≤ limMagnitude cfg k c a := by
  by_cases h : (a : Int) < limThreshold k c
  · rw [limMagnitude_linear h]
    exact Int.natCast_nonneg a
  · exact (limThreshold_nonneg hc).trans (limMagnitude_range hcfg hk hc (not_lt.1 h) ha).1

theorem limMagnitude_mono (haa' : a ≤ a') (ha' : a' ≤ 2147483648) :
    limMagnitude cfg k c a ≤ limMagnitude cfg k c a' := by
  have hthr : 0 ≤ limThreshold k c := limThreshold_nonneg hc
  by_cases h' : (a' : Int) < limThreshold k c
  · rw [limMagnitude_linear h', limMagnitude_linear (by omega)]
    exact Int.ofNat_le.2 haa'
  · by_cases h : (a : Int) < limThreshold k c
    · rw [limMagnitude_linear h]
      exact h.le.trans (limMagnitude_range hcfg hk hc (not_lt.1 h') ha').1
    · have hclip := hcfg.softclip_mono k ((a : Int) - limThreshold k c).toNat ((a' : Int) - limThreshold k c).toNat
        hk (by omega) (by omega)
      rw [limMagnitude_compressed (not_lt.1 h), limMagnitude_compressed (not_lt.1 h')]
      omega

theorem softLimit_neg : softLimit cfg k (-x) c = -softLimit cfg k x c := by
  have hzero : limMagnitude cfg k c 0 = 0 := limMagnitude_of_le_threshold hcfg hk (limThreshold_nonneg hc)
  rw [softLimit_eq_limMagnitude, softLimit_eq_limMagnitude, Int.natAbs_neg]
  rcases lt_trichotomy x 0 with hx | rfl | hx
  · rw [if_neg (by omega), if_pos hx, neg_neg]
  · simp [hzero]
  · rw [if_pos (by omega), if_neg (by omega)]

end

/-- Settles O39: the magnitude is that of the input, mapped, and the sign is the input's. -/
theorem limiterBoundedAboveThreshold : Obligations.LimiterBoundedAboveThreshold := by
  intro cfg k c x hcfg hk hc hx₀ hx₁ h
  obtain ⟨hlo, hhi⟩ := limMagnitude_range hcfg hk hc h (by omega)
  exact ⟨_, hlo, hhi, fun hx => softLimit_eq_limMagnitude.trans (if_neg hx.not_gt),
    fun hx => softLimit_eq_limMagnitude.trans (if_pos hx)⟩

/-- Settles O40: the last two clauses compare magnitudes, where the map is nonnegative. -/
theorem limiterShape : Obligations.LimiterShape := by
  intro cfg k c x hcfg hk hc hx₀ hx₁
  have hnonneg : 0 ≤ limMagnitude cfg k c x.natAbs := limMagnitude_nonneg hcfg hk hc (by omega)
  refine ⟨fun _ => softLimit_neg hcfg hk hc, softLimit_at_threshold hcfg hk, fun x' hx'₀ hx'₁ hle => ?_, fun hclip => ?_⟩
  · have hmono : limMagnitude cfg k c x.natAbs ≤ limMagnitude cfg k c x'.natAbs :=
      limMagnitude_mono hcfg hk hc hle (by omega)
    rw [natAbs_softLimit, natAbs_softLimit]
    omega
  · have hself : limMagnitude cfg k c x.natAbs ≤ x.natAbs := limMagnitude_le_self hclip
    rw [natAbs_softLimit]
    omega

end Sys2Proof.Machine

/-! # The gain-ramp family: the gain's update, its bounds and its sequence (44_gainramp.md) -/

namespace Sys2Proof.Machine

/-! ## One update (R200 to R203) -/

section
variable {g : Int}

theorem gainNext_of_lt_snap (h : g < 16776880) : gainNext g = g + (16777216 - g) / 16 := by
  rw [gainNext_eq, if_pos h]

theorem gainNext_of_snap_le (h : 16776880 ≤ g) : gainNext g = 16777216 := by
  rw [gainNext_eq, if_neg (not_lt.2 h)]

@[simp] theorem gainNext_ONE : gainNext 16777216 = 16777216 := gainNext_of_snap_le (by decide)

/-- Below the snap point the gap is at least 337, and a sixteenth of it at least 21 (R203). -/
theorem add_21_le_gainNext (h : g < 16776880) : g + 21 ≤ gainNext g := by
  rw [gainNext_of_lt_snap h]
  omega

theorem le_gainNext (h : g ≤ 16777216) : g ≤ gainNext g := by
  rcases lt_or_ge g 16776880 with hlt | hge
  · have := add_21_le_gainNext hlt
    omega
  · rw [gainNext_of_snap_le hge]
    exact h

/-- The floor makes an update at most a sixteenth of the gap: the gain it leaves is at most the mean of fifteen parts the old
gain and one part `ONE` (R201). -/
theorem sixteen_mul_gainNext_le (h : g < 16776880) : 16 * gainNext g ≤ 15 * g + 16777216 := by
  rw [gainNext_of_lt_snap h]
  omega

end

/-! ## What each command does to the gain (R206) -/

/-- Only INIT, RESUME and SAMPLE write the gain (R30, R206). -/
theorem gInputGain_not_mem_writesOf {i : Instr} (hsample : ∀ x : Word, i ≠ .sample x) (hinit : i ≠ .init)
    (hresume : i ≠ .resume) : Reg.gInputGain ∉ writesOf i := by
  cases i with
  | init => exact absurd rfl hinit
  | resume => exact absurd rfl hresume
  | sample x => exact absurd rfl (hsample x)
  | _ => simp [writesOf]

section
variable {s t : State} {i : Instr}

/-- INIT and RESUME start the ramp anew (R206). -/
theorem exec_restart_read_gInputGain (hi : i = .init ∨ i = .resume) (h : exec i s = .next t) :
    t.read .gInputGain = 0 := by
  obtain rfl | rfl := hi
  · obtain rfl : t = _ := exec_cases h
    simp [initWord]
  · obtain rfl : t = _ := exec_cases h
    simp [wordOf]

/-- SAMPLE leaves the updated gain, which fits its register (R200, R210). -/
theorem exec_sample_read_gInputGain {x : Word} (hs : s.read .gInputGain ≤ 16777216) (h : exec (.sample x) s = .next t) :
    t.read .gInputGain = gainNext (s.read .gInputGain) := by
  obtain ⟨h₀, h₁⟩ := gainNext_range (s.read_nonneg .gInputGain) hs
  obtain rfl : t = _ := exec_cases h
  rw [sampleFrame_read, if_pos rfl, wordOf_toNat h₀ (by omega)]

/-- Between restarts the gain does not fall, and `ONE` bounds it (R203). -/
theorem exec_gInputGain_mono (hs : s.read .gInputGain ≤ 16777216) (hinit : i ≠ .init) (hresume : i ≠ .resume)
    (h : exec i s = .next t) : s.read .gInputGain ≤ t.read .gInputGain ∧ t.read .gInputGain ≤ 16777216 := by
  cases i with
  | init => exact absurd rfl hinit
  | resume => exact absurd rfl hresume
  | sample x =>
    rw [exec_sample_read_gInputGain hs h]
    exact ⟨le_gainNext hs, (gainNext_range (s.read_nonneg _) hs).2⟩
  | _ =>
    have hkeep : t.read .gInputGain = s.read .gInputGain := exec_frame_read h (by simp [writesOf])
    exact ⟨hkeep.ge, hkeep.trans_le hs⟩

end

/-- Settles O43: the gain a frame leaves, by the two branches of the update. -/
theorem sampleRampsGain : Obligations.SampleRampsGain := fun x s hs =>
  have h := exec_sample s x
  ⟨_, h, (exec_sample_read_gInputGain hs h).trans (gainNext_eq _)⟩

/-- Settles O44: INIT and RESUME restart the ramp, SAMPLE runs it, and the writers column shuts out the rest. -/
theorem gainBoundedAndMonotone : Obligations.GainBoundedAndMonotone := by
  intro i s t hs h
  refine ⟨fun hi => exec_restart_read_gInputGain hi h, fun hinit hresume => exec_gInputGain_mono hs hinit hresume h, ?_,
    fun hsample hinit hresume => (exec_frame h (gInputGain_not_mem_writesOf hsample hinit hresume)).1⟩
  rintro x rfl
  rw [exec_sample_read_gInputGain hs h]
  exact ⟨add_21_le_gainNext, fun hone => by rw [hone, gainNext_ONE]⟩

/-! ## The sequence from 0 (R204, R205) -/

theorem gainAfter_succ (n : Nat) : gainAfter (n + 1) = gainNext (gainAfter n) := rfl

theorem gainAfter_range (n : Nat) : 0 ≤ gainAfter n ∧ gainAfter n ≤ 16777216 := by
  induction n with
  | zero => decide
  | succ n ih => exact gainNext_range ih.1 ih.2

theorem gainAfter_mono : Monotone gainAfter :=
  monotone_nat_of_le_succ fun n => le_gainNext (gainAfter_range n).2

/-- The last update that leaves the gain below the snap point (R204 (b)). -/
theorem gainAfter_167_lt : gainAfter 167 < 16776880 := by decide +kernel

theorem gainAfter_168 : gainAfter 168 = 16776880 := by decide +kernel

theorem gainAfter_lt_snap {n : Nat} (h : n < 168) : gainAfter n < 16776880 :=
  (gainAfter_mono (Nat.le_of_lt_succ h)).trans_lt gainAfter_167_lt

theorem gainAfter_of_169_le {n : Nat} (h : 169 ≤ n) : gainAfter n = 16777216 := by
  induction n, h using Nat.le_induction with
  | base => rw [gainAfter_succ, gainAfter_168, gainNext_of_snap_le le_rfl]
  | succ n _ ih => rw [gainAfter_succ, ih, gainNext_ONE]

/-! ## The exponential law (R204 (a)), multiplied by 16^n -/

/-- Each update rounds down, so the gain stays at or below the law. -/
theorem gainAfter_le_law {n : Nat} (h : n ≤ 168) : gainAfter n * 16 ^ n ≤ 16777216 * (16 ^ n - 15 ^ n) := by
  induction n with
  | zero => decide
  | succ n ih =>
    have hstep : 16 * gainAfter (n + 1) ≤ 15 * gainAfter n + 16777216 := sixteen_mul_gainNext_le (gainAfter_lt_snap h)
    calc gainAfter (n + 1) * 16 ^ (n + 1)
        = 16 * gainAfter (n + 1) * 16 ^ n := by ring
      _ ≤ (15 * gainAfter n + 16777216) * 16 ^ n := mul_le_mul_of_nonneg_right hstep (by positivity)
      _ = 15 * (gainAfter n * 16 ^ n) + 16777216 * 16 ^ n := by ring
      _ ≤ 15 * (16777216 * (16 ^ n - 15 ^ n)) + 16777216 * 16 ^ n := by linarith [ih (by omega)]
      _ = 16777216 * (16 ^ (n + 1) - 15 ^ (n + 1)) := by ring

/-- An update may lose up to 15/16 of a unit, which alone bounds the distance by 15 units only; that it stays within 9 is a
fact about the 168 roundings of this sequence. -/
theorem law_le_gainAfter_add_9 : ∀ n ≤ 168, 16777216 * (16 ^ n - 15 ^ n) ≤ (gainAfter n + 9) * 16 ^ n := by
  decide +kernel

/-- `ONE` is 16^6: no update rounds before the seventh. -/
theorem gainAfter_eq_law : ∀ n ≤ 6, gainAfter n * 16 ^ n = 16777216 * (16 ^ n - 15 ^ n) := by
  decide +kernel

/-- Settles O45: the law from both sides up to the snap, and `ONE` after it. -/
theorem gainFollowsExponentialLaw : Obligations.GainFollowsExponentialLaw :=
  ⟨fun n hn => ⟨gainAfter_le_law hn, law_le_gainAfter_add_9 n hn, gainAfter_eq_law n⟩,
    gainAfter_167_lt, gainAfter_168, fun _ => gainAfter_of_169_le⟩

/-! ## The sequence as an invariant (R205, R206) -/

section
variable {s t : State} {i : Instr}

theorem State.GainInSequence.read_le (hs : s.GainInSequence) : s.read .gInputGain ≤ 16777216 := by
  obtain ⟨n, hn⟩ := hs
  exact hn.trans_le (gainAfter_range n).2

/-- SAMPLE goes on to the next value of the sequence. -/
theorem exec_sample_gainInSequence {x : Word} (hs : s.GainInSequence) (h : exec (.sample x) s = .next t) :
    t.GainInSequence := by
  have hread := exec_sample_read_gInputGain hs.read_le h
  obtain ⟨n, hn⟩ := hs
  exact ⟨n + 1, by rw [hread, hn, gainAfter_succ]⟩

theorem exec_keeps_gainInSequence (hs : s.GainInSequence) (h : exec i s = .next t) : t.GainInSequence := by
  cases i with
  | init => exact ⟨0, exec_restart_read_gInputGain (.inl rfl) h⟩
  | resume => exact ⟨0, exec_restart_read_gInputGain (.inr rfl) h⟩
  | sample x => exact exec_sample_gainInSequence hs h
  | _ =>
    obtain ⟨n, hn⟩ := hs
    exact ⟨n, (exec_frame_read h (by simp [writesOf])).trans hn⟩

end

/-- Settles O46: INIT and RESUME give `gainAfter 0`, SAMPLE the next value, and the other commands keep the gain. -/
theorem gainStaysInSequence : Obligations.GainStaysInSequence := by
  refine ⟨fun s t h => ?_, fun s _ => step_induct s (fun _ _ hs => hs) fun _ _ _ => exec_keeps_gainInSequence⟩
  have hzero : t.read .gInputGain = gainAfter 0 :=
    h.elim (exec_restart_read_gInputGain (.inl rfl)) (exec_restart_read_gInputGain (.inr rfl))
  exact ⟨hzero, 0, hzero⟩

end Sys2Proof.Machine

/-! # The process family: the port events of a SAMPLE, its frame and PROCESS (45_process.md) -/

namespace Sys2Proof.Machine

/-! ## What a SAMPLE leaves alone (R210, R30) -/

section
variable {s t : State} {i : Instr} {x : Word}

/-- No command makes a register invalid (R50). -/
theorem exec_keeps_written {r : Reg} (hr : s.written r = true) (h : exec i s = .next t) : t.written r = true := by
  cases i with
  | nop | paramIgnored | reserved | rdReg => rwa [(exec_frame h (by simp [writesOf])).2]
  | sample =>
    obtain rfl : t = _ := exec_cases h
    simp [lfoStep_written, lfoAdvance_written, hr]
  | init | resume | setTime | setDepth | block =>
    obtain rfl : t = _ := exec_cases h
    simp [hr]

/-- With every register written, no command records a read (R264). -/
theorem exec_uninit_of_written (hs : ∀ r : Reg, s.written r = true) (h : exec i s = .next t) : t.uninit = s.uninit := by
  have hreads : (readsOf s i).find? (fun r => !s.written r) = none := by simp [hs]
  rw [exec_uninit h, hreads, Option.or_none]

/-- What a run starts from after INIT, every command keeps (R50, R264). -/
theorem exec_keeps_initialised (hs : s.Initialised) (h : exec i s = .next t) : t.Initialised := by
  obtain ⟨hnone, hwritten⟩ := hs
  exact ⟨(exec_uninit_of_written hwritten h).trans hnone, fun r => exec_keeps_written (hwritten r) h⟩

theorem exec_sample_regsKept (h : exec (.sample x) s = .next t) :
    RegsKept [.lfoT, .lfoOut, .lfoDir, .lfoOut2, .gInputGain] s t := by
  intro r hr
  refine exec_frame h fun hw => hr ?_
  simp only [writesOf, List.mem_cons] at hw ⊢
  tauto

/-- The phase, the fold and the gain are written whatever the LFO step does (R150, R200). -/
theorem exec_sample_written (h : exec (.sample x) s = .next t) :
    ∀ r ∈ [Reg.lfoT, .lfoOut2, .gInputGain], t.written r = true := by
  obtain rfl : t = _ := exec_cases h
  simp [lfoStep_written, lfoAdvance_written]

end

/-- Settles O31: the writers column is the frame, and a SAMPLE that finds every register written records nothing. -/
theorem sampleFrameCondition : Obligations.SampleFrameCondition := fun x s =>
  have h := exec_sample s x
  have hwritten := exec_sample_written h
  ⟨_, h, exec_sample_regsKept h, hwritten _ (by decide), hwritten _ (by decide), hwritten _ (by decide),
    fun hs => exec_uninit_of_written hs h⟩

/-! ## The port events of a SAMPLE (R210 to R216) -/

/-- The word a SAMPLE sends to the delay line, from a state (R214). -/
def inputWord (x : Word) (s : State) : Word :=
  wordOf (delayInput Config.hw x.toInt (s.read .gInputGain) s.dlAnswer.toInt)

/-- The word a SAMPLE drives on each output channel, for an answer of the delay line (R215, R216). -/
def outputWord (x answer : Word) : Word := wordOf (outputSample Config.hw x.toInt answer.toInt)

section
variable {s t : State} {x : Word}

/-- The offset of the state a SAMPLE leaves is the one it sent: nothing after step c writes the registers step c reads. -/
theorem exec_sample_events (h : exec (.sample x) s = .next t) : t.events = s.events ++
    [.dlOutput s.dlAnswer, .dlUpdate (wordOf (offset t)), .dlInput (inputWord x s),
     .out (outputWord x s.dlAnswer) (outputWord x s.dlAnswer) (outputWord x s.dlAnswer) (outputWord x s.dlAnswer)] := by
  have hoffset : offset (lfoStep s) = offset t := by
    simp only [offset, exec_sample_read_of_ne (r := .lfoTh) (by decide) h,
      exec_sample_read_of_ne (r := .lfoOut2) (by decide) h, exec_sample_read_of_ne (r := .pDepthScale) (by decide) h]
  rw [← hoffset]
  obtain rfl : t = _ := exec_cases h
  exact sampleFrame_events s Config.hw x.toInt (sampleReads s)

/-- The offset in the registers the SAMPLE found, but for the fold (R212). -/
theorem exec_sample_offset (h : exec (.sample x) s = .next t) :
    offset t = (s.read .lfoTh / 2 - t.read .lfoOut2) * s.read .pDepthScale / 16777216 := by
  have hth : t.read .lfoTh = s.read .lfoTh := exec_sample_keeps_lfoTh h
  have hscale : t.read .pDepthScale = s.read .pDepthScale := exec_frame_read h (by simp [writesOf])
  rw [offset, mulq24, asr_one, hth, hscale]

theorem exec_sample_dlRd (h : exec (.sample x) s = .next t) : t.dlRd = s.dlRd.tail := by
  obtain rfl : t = _ := exec_cases h
  rw [sampleFrame_dlRd, State.dlRd_noteReads]

end

section
variable (cfg : Config) (x g wet : Int)

theorem feedback_eq : feedback cfg wet = limFb cfg wet * 14935581 / 16777216 := mulq24 _ _

theorem delayInput_eq : delayInput cfg x g wet = sat32 (x * g / 16777216 + feedback cfg wet) := by
  rw [delayInput, mulq24]

theorem outputSample_eq : outputSample cfg x wet =
    sat32 (x * 8388608 / 16777216 + limWet cfg wet * 8388608 / 16777216) := by
  rw [outputSample, mulq24, mulq24]
  rfl

/-- A product with one half, floored, is the shifted value (R215). -/
theorem mul_half_eq (a : Int) : a * 8388608 / 16777216 = a / 2 := by omega

end

/-- A saturated value fits its port (R12). -/
theorem wordOf_sat32_toInt (v : Int) : (wordOf (sat32 v)).toInt = sat32 v :=
  wordOf_toInt (sat32_range v).1 (sat32_range v).2

/-- Settles O23: the events of the frame, with the values of steps c to g spelled out. -/
theorem sampleIssuesPortEvents : Obligations.SampleIssuesPortEvents := by
  intro x s
  have h := exec_sample s x
  refine ⟨_, h, ?_, exec_sample_dlRd h, exec_cmdIn h, fun _ _ => State.dlAnswer_of_ready s⟩
  rw [exec_sample_events h, exec_sample_offset h, inputWord, outputWord, delayInput_eq, outputSample_eq, feedback_eq]
  rfl

/-! ## The offset (R212) -/

/-- A factor from 0 to `B` keeps a value between `lo` and `hi` times `B`, for bounds on both sides of 0. -/
theorem mul_range {a lo hi b B : Int} (ha : lo ≤ a ∧ a ≤ hi) (hlo : lo ≤ 0) (hhi : 0 ≤ hi) (hb : 0 ≤ b) (hB : b ≤ B) :
    lo * B ≤ a * b ∧ a * b ≤ hi * B :=
  ⟨(mul_le_mul_of_nonpos_left hB hlo).trans (mul_le_mul_of_nonneg_right ha.1 hb),
    (mul_le_mul_of_nonneg_right ha.2 hb).trans (mul_le_mul_of_nonneg_left hB hhi)⟩

section
variable {s t : State} {x : Word}

theorem exec_sample_offset_of_inRange (hs : s.AllInRange) (h : exec (.sample x) s = .next t) :
    offset t = (16384 - t.read .lfoOut2) * s.read .pDepthScale / 16777216 := by
  have hth : s.read .lfoTh = 32768 := (inRange_iff_admits s .lfoTh).1 (hs _)
  rw [exec_sample_offset h, hth]
  rfl

/-- The recentred fold lies within 16384 of 0, so a scale of at most `B` gives an offset within `16384 * B` over 2^24. -/
theorem exec_sample_recentred_range {B : Int} (hs : s.AllInRange) (hB : s.read .pDepthScale ≤ B)
    (h : exec (.sample x) s = .next t) :
    -16384 * B ≤ (16384 - t.read .lfoOut2) * s.read .pDepthScale ∧
      (16384 - t.read .lfoOut2) * s.read .pDepthScale ≤ 16384 * B := by
  have hfold : t.read .lfoOut2 ≤ 32768 := (inRange_iff_admits t .lfoOut2).1 (exec_keeps_allInRange hs h _)
  have hfold₀ := t.read_nonneg .lfoOut2
  exact mul_range (by omega) (by decide) (by decide) (s.read_nonneg _) hB

end

/-- Settles O24: a fold within 16384 of its centre, times a scale of at most `ONE`, floored. -/
theorem sampleOffsetBounded : Obligations.SampleOffsetBounded := by
  intro x s hs
  obtain ⟨t, h⟩ : ∃ t, exec (.sample x) s = .next t := ⟨_, exec_sample s x⟩
  have hoffset := exec_sample_offset_of_inRange hs h
  have hone := exec_sample_recentred_range hs ((inRange_iff_admits s .pDepthScale).1 (hs _)) h
  have hword : (wordOf (offset t)).toInt = offset t := wordOf_toInt (by omega) (by omega)
  refine ⟨t, _, _, _, _, h, exec_sample_events h, ?_⟩
  rw [hword]
  refine ⟨hoffset, by omega, by omega, fun hzero => ?_, fun hsmall => ?_, fun hscale => ⟨fun hlow => ?_, fun hhigh => ?_⟩⟩
  · rw [hoffset, hzero, mul_zero, Int.zero_ediv]
  · have hbound := exec_sample_recentred_range hs hsmall h
    omega
  · rw [hoffset, hscale, hlow]
    rfl
  · rw [hoffset, hscale, hhigh]
    rfl

/-! ## The limiter on an answer (R185, R187) -/

/-- The limiter's ceiling bounds every result (R185). -/
theorem softLimit_range {cfg : Config} {k c : Nat} {x : Int} (hcfg : cfg.Contract) (hk : k < 16777216) (hc : 16777216 ≤ c)
    (hx : x.natAbs ≤ 2147483648) : -(c : Int) ≤ softLimit cfg k x c ∧ softLimit cfg k x c ≤ c := by
  have hmag : 0 ≤ limMagnitude cfg k c x.natAbs := limMagnitude_nonneg hcfg hk hc hx
  have hmag' : limMagnitude cfg k c x.natAbs ≤ c := by
    by_cases h : (x.natAbs : Int) < limThreshold k c
    · have hthr := limThreshold_eq k c
      rw [limMagnitude_linear h]
      omega
    · exact (limMagnitude_range hcfg hk hc (not_lt.1 h) hx).2
  rw [softLimit_eq_limMagnitude]
  split_ifs <;> omega

theorem natAbs_toInt_le (w : Word) : w.toInt.natAbs ≤ 2147483648 := by
  have hlo := BitVec.le_toInt w
  have hhi := BitVec.toInt_lt (x := w)
  omega

/-- The wet signal limited, at most 1.0 in magnitude (R187). -/
theorem limWet_range (w : Word) : -16777216 ≤ limWet Config.hw w.toInt ∧ limWet Config.hw w.toInt ≤ 16777216 :=
  softLimit_range Config.hw_contract (by decide) (by decide) (natAbs_toInt_le w)

/-- The feedback of any answer, at most 1.2 times 0.890230 in magnitude (R213). -/
theorem feedback_range (w : Word) : -17922698 ≤ feedback Config.hw w.toInt ∧ feedback Config.hw w.toInt ≤ 17922697 := by
  have hlim : -20132659 ≤ limFb Config.hw w.toInt ∧ limFb Config.hw w.toInt ≤ 20132659 :=
    softLimit_range Config.hw_contract (by decide) (by decide) (natAbs_toInt_le w)
  rw [feedback_eq]
  omega

theorem feedback_zero : feedback Config.hw 0 = 0 := by
  obtain ⟨-, -, -, hfb, -⟩ := limiterLinearBelowThreshold
  rw [feedback_eq, hfb]
  rfl

/-- A half of the limited answer is 0 for an answer of 0 or 1 alone: both lie in the linear region, above which the magnitude
is at least the threshold, and a negative half is floored away from 0 (R223). -/
theorem limWet_half_eq_zero_iff (w : Word) : limWet Config.hw w.toInt / 2 = 0 ↔ w = 0#32 ∨ w = 1#32 := by
  have hword : (w = 0#32 ∨ w = 1#32) ↔ (w.toInt = 0 ∨ w.toInt = 1) :=
    or_congr BitVec.toInt_inj.symm BitVec.toInt_inj.symm
  rw [hword]
  by_cases h : (w.toInt.natAbs : Int) < limThreshold K_WET C_WET
  · have hlim : limWet Config.hw w.toInt = w.toInt := softLimit_linear _ _ _ _ h
    rw [hlim]
    omega
  · have hthr : limThreshold K_WET C_WET = 838861 := by decide
    obtain ⟨hmag, -⟩ := limMagnitude_range Config.hw_contract (by decide) (by decide) (not_lt.1 h) (natAbs_toInt_le w)
    rw [limWet, softLimit_eq_limMagnitude]
    split_ifs <;> omega

/-! ## The delay-line input (R214) -/

/-- The word carries the saturated sum. -/
theorem inputWord_toInt (x : Word) (s : State) : (inputWord x s).toInt =
    sat32 (x.toInt * s.read .gInputGain / 16777216 + feedback Config.hw s.dlAnswer.toInt) := by
  rw [inputWord, delayInput_eq, wordOf_sat32_toInt]

/-- A gain of at most 1 keeps a sample in its range (R214, R261 (e)). -/
theorem scaled_sample_range (x : Word) {g : Int} (h₀ : 0 ≤ g) (h₁ : g ≤ 16777216) :
    -2147483648 ≤ x.toInt * g / 16777216 ∧ x.toInt * g / 16777216 ≤ 2147483647 := by
  have hlo := BitVec.le_toInt x
  have hhi := BitVec.toInt_lt (x := x)
  have hmul : -2147483648 * 16777216 ≤ x.toInt * g ∧ x.toInt * g ≤ 2147483647 * 16777216 :=
    mul_range (by omega) (by decide) (by decide) h₀ h₁
  omega

/-- With no input part, a SAMPLE feeds the delay line the feedback alone: it needs no saturation. -/
theorem inputWord_toInt_of_silent {x : Word} {s : State} (h : x.toInt * s.read .gInputGain = 0) :
    (inputWord x s).toInt = feedback Config.hw s.dlAnswer.toInt := by
  obtain ⟨hlo, hhi⟩ := feedback_range s.dlAnswer
  rw [inputWord_toInt, h, Int.zero_ediv, zero_add, sat32_of_range (by omega) (by omega)]

/-- A zero answer has no feedback, so without an input part the delay line gets 0. -/
theorem inputWord_eq_zero {x : Word} {s : State} (h : x.toInt * s.read .gInputGain = 0) (hanswer : s.dlAnswer = 0#32) :
    inputWord x s = 0#32 :=
  BitVec.eq_of_toInt_eq (by rw [inputWord_toInt_of_silent h, hanswer]; exact feedback_zero)

/-- Settles O25: the three clauses are the three cases of saturation. -/
theorem delayInputSaturates : Obligations.DelayInputSaturates := by
  intro x s hgain
  have h := exec_sample s x
  obtain ⟨hfb₀, hfb₁⟩ := feedback_range s.dlAnswer
  obtain ⟨hx₀, hx₁⟩ := scaled_sample_range x (s.read_nonneg .gInputGain) hgain
  refine ⟨_, _, _, _, _, h, exec_sample_events h, feedback_eq _ _, hfb₀, hfb₁, hx₀, hx₁, ?_⟩
  rw [inputWord_toInt]
  exact ⟨sat32_of_range, fun hhigh => by simp only [sat32]; omega, fun hlow => by simp only [sat32]; omega⟩

/-! ## The output (R215) -/

/-- Both halves together are far from the s32 limits, so the saturation never acts (R215, R224). -/
theorem outputWord_toInt (x answer : Word) :
    (outputWord x answer).toInt = x.toInt / 2 + limWet Config.hw answer.toInt / 2 := by
  have hlo := BitVec.le_toInt x
  have hhi := BitVec.toInt_lt (x := x)
  have hwet := limWet_range answer
  rw [outputWord, outputSample_eq, wordOf_sat32_toInt, mul_half_eq, mul_half_eq, sat32_of_range (by omega) (by omega)]

/-- Settles O26: each half within its own bounds. -/
theorem outputIsHalfDryHalfWet : Obligations.OutputIsHalfDryHalfWet := by
  intro x s
  have h := exec_sample s x
  have hlo := BitVec.le_toInt x
  have hhi := BitVec.toInt_lt (x := x)
  have hwet := limWet_range s.dlAnswer
  refine ⟨_, _, _, _, h, exec_sample_events h, outputWord_toInt x s.dlAnswer, ?_⟩
  rw [outputWord_toInt]
  omega

/-- Settles O27: the output word has no argument but the sample and the answer. -/
theorem outputIgnoresRegisters : Obligations.OutputIgnoresRegisters := by
  intro x s s' t t' hanswer h h'
  refine ⟨outputWord x s.dlAnswer, ?_, ?_⟩
  · simp [exec_sample_events h]
  · simp [exec_sample_events h', hanswer]

/-! ## Silence (R218 (a), R223) -/

/-- Of a zero sample the output is half the limited answer. -/
theorem outputWord_zero_toInt (answer : Word) : (outputWord 0#32 answer).toInt = limWet Config.hw answer.toInt / 2 := by
  simp [outputWord_toInt]

/-- A zero sample is silent for an answer of 0 or 1 alone (R223). -/
theorem outputWord_zero_eq_zero_iff (answer : Word) : outputWord 0#32 answer = 0#32 ↔ answer = 0#32 ∨ answer = 1#32 := by
  rw [← limWet_half_eq_zero_iff, ← outputWord_zero_toInt]
  exact BitVec.toInt_inj.symm

/-- Settles O28: neither part of the delay input nor of the output is left. -/
theorem zeroInZeroOut : Obligations.ZeroInZeroOut := by
  intro s hanswer
  have h := exec_sample s 0#32
  have hin : inputWord 0#32 s = 0#32 := inputWord_eq_zero (by simp) hanswer
  have hout : outputWord 0#32 0#32 = 0#32 := (outputWord_zero_eq_zero_iff _).2 (.inl rfl)
  exact ⟨_, _, h, by rw [exec_sample_events h, hin, hanswer, hout]⟩

/-- Settles O29: RESUME leaves a gain of 0, so no sample has an input part. -/
theorem firstFrameAfterResume : Obligations.FirstFrameAfterResume := by
  intro x s t hresume
  have h := exec_sample t x
  have hsilent : x.toInt * t.read .gInputGain = 0 := by
    rw [exec_restart_read_gInputGain (.inr rfl) hresume, mul_zero]
  refine ⟨_, _, _, _, h, exec_sample_events h, (inputWord_toInt_of_silent hsilent).trans (feedback_eq _ _),
    inputWord_eq_zero hsilent, ?_⟩
  rintro rfl
  exact ⟨outputWord_zero_toInt _, outputWord_zero_eq_zero_iff _⟩

/-! ## PROCESS (R219) -/

section
variable {s t : State} {i : Instr}

/-- A run from an initialised state goes on after each command. -/
theorem runCommands_cons_of_initialised (hs : s.Initialised) (h : exec i s = .next t) (rest : List Instr) :
    runCommands (i :: rest) s = runCommands rest t := by
  have hnone : t.uninit = none := (exec_keeps_initialised hs h).1
  rw [runCommands, runCommand_eq h, endOfRun_of_none hnone]

/-- One SAMPLE drives one frame on each output (R216). -/
theorem exec_sample_frames {x : Word} (h : exec (.sample x) s = .next t) :
    (mainOut t.events).length = (mainOut s.events).length + 1 ∧
      (subOut t.events).length = (subOut s.events).length + 1 := by
  simp [exec_sample_events h, mainOut, subOut]

end

/-- A run of SAMPLEs ends, with one more frame on each output for each of them. -/
theorem runCommands_samples (xs : List Word) {s : State} (hs : s.Initialised) :
    ∃ t : State, runCommands (xs.map .sample) s = .next t ∧
      (mainOut t.events).length = (mainOut s.events).length + xs.length ∧
      (subOut t.events).length = (subOut s.events).length + xs.length := by
  induction xs generalizing s with
  | nil => exact ⟨s, endOfRun_of_none hs.1, rfl, rfl⟩
  | cons x xs ih =>
    have h := exec_sample s x
    obtain ⟨hmain, hsub⟩ := exec_sample_frames h
    obtain ⟨t, hrun, hmain', hsub'⟩ := ih (exec_keeps_initialised hs h)
    refine ⟨t, (runCommands_cons_of_initialised hs h _).trans hrun, ?_, ?_⟩
    · rw [hmain', hmain, List.length_cons, add_right_comm, add_assoc]
    · rw [hsub', hsub, List.length_cons, add_right_comm, add_assoc]

/-- Settles O57: the BLOCK drives nothing, and each SAMPLE after it one frame. -/
theorem processDrivesOneOutputPerFrame : Obligations.ProcessDrivesOneOutputPerFrame := by
  intro xs s hs
  have h := exec_block s
  obtain ⟨t, hrun, hmain, hsub⟩ := runCommands_samples xs (exec_keeps_initialised hs h)
  exact ⟨t, (runCommands_cons_of_initialised hs h _).trans hrun, hmain, hsub⟩

end Sys2Proof.Machine

/-! # The lifecycle family: INIT, RESUME, NOP and RDREG (46_lifecycle.md) -/

namespace Sys2Proof.Machine

/-- A command whose reads are all written leaves the record as it stands (R264). -/
theorem exec_uninit_of_reads_written {i : Instr} {s t : State} (h : exec i s = .next t)
    (hreads : ∀ r ∈ readsOf s i, s.written r = true) : t.uninit = s.uninit := by
  have hnone : ((readsOf s i).find? fun r => !s.written r) = none := by simpa using hreads
  rw [exec_uninit h, hnone, Option.or_none]

/-! ## RDREG (R244) -/

/-- The select map pairs each register with its own select (R30). -/
theorem selectMap_eq_map_sel : selectMap = Reg.all.map fun r => (r.sel, r) := rfl

/-- The map lists exactly the selects that name a register (R30, R110). -/
theorem mem_selectMap_iff {sel : BitVec 8} {r : Reg} : (sel, r) ∈ selectMap ↔ Reg.ofSel sel = some r := by
  rw [Reg.ofSel_eq_some, selectMap_eq_map_sel, List.mem_map]
  constructor
  · rintro ⟨q, -, hq⟩
    obtain ⟨rfl, rfl⟩ := Prod.mk.inj hq
    rfl
  · rintro rfl
    exact ⟨r, Reg.mem_all r, rfl⟩

/-- The word RDREG returns: the selected register's, or 0 where the select names none. -/
def selectedWord (s : State) (sel : BitVec 8) : Word := ((Reg.ofSel sel).map s.get).getD 0#32

theorem selectedWord_of_mem {sel : BitVec 8} {r : Reg} (h : (sel, r) ∈ selectMap) (s : State) :
    selectedWord s sel = s.get r := by
  simp [selectedWord, mem_selectMap_iff.1 h]

theorem selectedWord_of_reserved {sel : BitVec 8} (h : ∀ r : Reg, (sel, r) ∉ selectMap) (s : State) :
    selectedWord s sel = 0#32 := by
  have hnone : Reg.ofSel sel = none := Option.eq_none_iff_forall_ne_some.2 fun r hr => h r (mem_selectMap_iff.2 hr)
  simp [selectedWord, hnone]

section
variable {s t u : State} {sel : BitVec 8}

/-- States with the same registers answer every select alike. -/
theorem selectedWord_congr (h : ∀ r, t.get r = s.get r) : selectedWord t sel = selectedWord s sel := by
  rw [selectedWord, selectedWord, funext h]

theorem exec_rdReg_regsKept (h : exec (.rdReg sel) s = .next t) : RegsKept [] s t := fun _ hr => exec_frame h hr

theorem exec_rdReg_portsKept (h : exec (.rdReg sel) s = .next t) : PortsKeptBut [.res (selectedWord s sel)] s t := by
  obtain rfl : t = _ := exec_cases h
  exact ⟨rfl, rfl, rfl⟩

/-- RDREG records nothing when the register it selects, if any, is written (R264). -/
theorem exec_rdReg_uninit (h : exec (.rdReg sel) s = .next t)
    (hwritten : ∀ r : Reg, (sel, r) ∈ selectMap → s.written r = true) : t.uninit = s.uninit :=
  exec_uninit_of_reads_written h fun r hr => hwritten r (mem_selectMap_iff.2 (Option.mem_toList.1 hr))

/-- A second RDREG finds the registers the first one found, and so returns the same word. -/
theorem exec_rdReg_again_events (h : exec (.rdReg sel) s = .next t) (hu : exec (.rdReg sel) t = .next u) :
    u.events = t.events ++ [.res (selectedWord s sel)] := by
  have hsame : selectedWord t sel = selectedWord s sel :=
    selectedWord_congr fun r => (exec_rdReg_regsKept h r List.not_mem_nil).1
  rw [(exec_rdReg_portsKept hu).1, hsame]

end

/-- Settles O21: RDREG's one event carries the selected word, and its frame is the whole register file. -/
theorem rdregReturnsSelectedRegister : Obligations.RdregReturnsSelectedRegister := fun sel s =>
  have h := exec_rdReg s sel
  ⟨_, selectedWord s sel, h, fun _ hr => selectedWord_of_mem hr s, fun hr => selectedWord_of_reserved hr s,
    exec_rdReg_regsKept h, exec_rdReg_portsKept h, exec_rdReg_uninit h, fun _ => exec_rdReg_again_events h⟩

/-! ## INIT (R241) -/

section
variable {s t : State}

theorem exec_init_get (h : exec .init s = .next t) (r : Reg) : t.get r = initWord r := by
  obtain rfl : t = _ := exec_cases h
  exact initRegisters_get _ r

theorem exec_init_written (h : exec .init s = .next t) (r : Reg) : t.written r = true := by
  obtain rfl : t = _ := exec_cases h
  exact initRegisters_written _ r

theorem exec_init_portsKept (h : exec .init s = .next t) : PortsKeptBut [.dlInit, .dlReset] s t := by
  obtain rfl : t = _ := exec_cases h
  simp [PortsKeptBut]

theorem exec_init_uninit (h : exec .init s = .next t) : t.uninit = s.uninit :=
  exec_uninit_of_reads_written h fun _ hr => absurd hr List.not_mem_nil

/-- INIT leaves the same registers from every state. -/
theorem exec_init_regs_eq {s' t' : State} (h : exec .init s = .next t) (h' : exec .init s' = .next t') :
    t'.regs = t.regs ∧ t'.valid = t.valid :=
  ⟨State.regs_ext fun r => by rw [exec_init_get h', exec_init_get h],
   State.valid_ext fun r => by rw [exec_init_written h', exec_init_written h]⟩

end

/-- Settles O17: each listed value is `initWord` of its register. -/
theorem initWritesEveryRegister : Obligations.InitWritesEveryRegister := fun s =>
  have h := exec_init s
  have hget := exec_init_get h
  ⟨_, h, hget .pTime, hget .pDepth, hget .gInputGain, hget .lfoDt, hget .pTimerInc, hget .lfoTh, hget .lfoOut,
    hget .lfoOut2, hget .lfoT, hget .lfoDir, hget .lfoCenter, hget .pDepthScale, exec_init_written h,
    exec_init_portsKept h, exec_init_uninit h⟩

/-! ## RESUME (R242, R245) -/

section
variable {s t : State}

theorem exec_resume_gInputGain (h : exec .resume s = .next t) :
    t.get .gInputGain = 0#32 ∧ t.written .gInputGain = true := by
  obtain rfl : t = _ := exec_cases h
  simp [wordOf]

theorem exec_resume_regsKept (h : exec .resume s = .next t) : RegsKept [.gInputGain] s t := fun _ hr => exec_frame h hr

theorem exec_resume_portsKept (h : exec .resume s = .next t) : PortsKeptBut [.dlReset] s t := by
  obtain rfl : t = _ := exec_cases h
  exact ⟨rfl, rfl, rfl⟩

theorem exec_resume_uninit (h : exec .resume s = .next t) : t.uninit = s.uninit :=
  exec_uninit_of_reads_written h fun _ hr => absurd hr List.not_mem_nil

/-- RESUME changes no register where the gain is 0 and written already. -/
theorem exec_resume_regs_eq (hgain : s.get .gInputGain = 0#32 ∧ s.written .gInputGain = true)
    (h : exec .resume s = .next t) : t.regs = s.regs ∧ t.valid = s.valid := by
  have hkept : ∀ r : Reg, t.get r = s.get r ∧ t.written r = s.written r := fun r => by
    by_cases hr : r = .gInputGain
    · obtain ⟨hget, hwritten⟩ := exec_resume_gInputGain h
      rw [hr, hget, hwritten, hgain.1, hgain.2]
      exact ⟨rfl, rfl⟩
    · exact exec_resume_regsKept h r (mt List.mem_singleton.1 hr)
  exact ⟨State.regs_ext fun r => (hkept r).1, State.valid_ext fun r => (hkept r).2⟩

end

/-- Settles O18: RESUME writes the gain, and keeps what its frame keeps. -/
theorem resumeResetsGainOnly : Obligations.ResumeResetsGainOnly := fun s =>
  have h := exec_resume s
  have ⟨hget, hwritten⟩ := exec_resume_gInputGain h
  ⟨_, h, hget, hwritten, exec_resume_regsKept h, exec_resume_portsKept h, exec_resume_uninit h⟩

/-- Settles O22: INIT and RESUME both leave a gain of 0, over which a RESUME changes no register. -/
theorem initThenResumeIsInit : Obligations.InitThenResumeIsInit := by
  intro s
  obtain ⟨t, hinit⟩ : ∃ t : State, exec .init s = .next t := ⟨_, exec_init s⟩
  obtain ⟨u, hresume⟩ : ∃ u : State, exec .resume t = .next u := ⟨_, exec_resume t⟩
  obtain ⟨hregs, hvalid⟩ := exec_resume_regs_eq ⟨exec_init_get hinit .gInputGain, exec_init_written hinit _⟩ hresume
  have hevents : u.events = s.events ++ [.dlInit, .dlReset, .dlReset] := by
    rw [(exec_resume_portsKept hresume).1, (exec_init_portsKept hinit).1, List.append_assoc]
    rfl
  exact ⟨t, u, hinit, hresume, hregs, hvalid, hevents, fun _ => exec_init_regs_eq hinit,
    fun _ => exec_resume_regs_eq (exec_resume_gInputGain hresume)⟩

/-! ## NOP (R243) -/

/-- A word with opcode 0x00 is read as NOP, whatever `RSV` and `SEL` are. -/
theorem decode_nop (rsv : BitVec 16) (sel : BitVec 8) (rest : List Word) :
    decode (commandWord 0x00#8 rsv sel :: rest) = .ok (.nop, rest) :=
  decode_commandWord_plain rfl rfl rsv rest

/-- Settles O19: the command's meaning is to do nothing, and a step on such a word runs that meaning. -/
theorem nopChangesNothing : Obligations.NopChangesNothing :=
  ⟨exec_nop, fun rsv sel rest s => step_cmdIn_of_decode_ok (decode_nop rsv sel rest) s⟩

end Sys2Proof.Machine

/-! # The exceptions family: completion, the `UNINIT` record and the fault of a run (60_exceptions.md) -/

namespace Sys2Proof.Machine

/-! ## Completion (R260, R266) -/

/-- No arm of `exec` answers a fault or a refusal. -/
theorem exec_completes : ∀ (i : Instr) (s : State), ∃ t : State, exec i s = .next t
  | .nop, s => ⟨_, exec_nop s⟩
  | .init, s => ⟨_, exec_init s⟩
  | .resume, s => ⟨_, exec_resume s⟩
  | .setTime v, s => ⟨_, exec_setTime s v⟩
  | .setDepth v, s => ⟨_, exec_setDepth s v⟩
  | .paramIgnored sel v, s => ⟨_, exec_paramIgnored s sel v⟩
  | .block, s => ⟨_, exec_block s⟩
  | .sample x, s => ⟨_, exec_sample s x⟩
  | .rdReg sel, s => ⟨_, exec_rdReg s sel⟩
  | .reserved opc, s => ⟨_, exec_reserved s opc⟩

/-- Settles O9: the arm of each command names its next state. -/
theorem everyCommandCompletes : Obligations.EveryCommandCompletes := exec_completes

section
variable {s t : State} {i : Instr} {r : Reg}

/-! ## The record (R264, log 2) -/

/-- A record that stands is never changed. -/
theorem exec_keeps_record (hs : s.uninit = some r) (h : exec i s = .next t) : t.uninit = some r := by
  rw [exec_uninit h, hs, Option.some_or]

/-- Without a record before it, a command's record is the first unwritten register it reads. -/
theorem exec_uninit_of_no_record (hs : s.uninit = none) (h : exec i s = .next t) :
    t.uninit = (readsOf s i).find? fun r => !s.written r := by
  rw [exec_uninit h, hs, Option.none_or]

/-- INIT reads nothing and writes every register (R241), so a run without a record is initialised by it. -/
theorem exec_init_initialised (hs : s.uninit = none) (h : exec .init s = .next t) : t.Initialised :=
  ⟨(exec_init_uninit h).trans hs, exec_init_written h⟩

/-! ## One command of a run (R264, R301) -/

theorem runCommand_of_unwritten_read (hs : s.uninit = none)
    (hr : (readsOf s i).find? (fun r => !s.written r) = some r) : runCommand i s = .fault (.uninit r) := by
  obtain ⟨t, h⟩ := exec_completes i s
  have hrecord : t.uninit = some r := (exec_uninit_of_no_record hs h).trans hr
  rw [runCommand_eq h, endOfRun_of_record hrecord]

theorem runCommand_of_reads_written (hs : s.uninit = none) (hreads : ∀ r ∈ readsOf s i, s.written r = true)
    (h : exec i s = .next t) : runCommand i s = .next t := by
  have hnone : t.uninit = none := (exec_uninit_of_reads_written h hreads).trans hs
  rw [runCommand_eq h, endOfRun_of_none hnone]

end

/-- Settles O53: INIT establishes the invariant, and every command keeps it. -/
theorem noUninitAfterInit : Obligations.NoUninitAfterInit :=
  ⟨fun _ _ => exec_init_initialised,
   fun s _ => step_induct s (fun _ _ hs => hs) (fun _ _ _ => exec_keeps_initialised)⟩

/-- Settles O54: the two cases of the record a command finds. -/
theorem unwrittenReadIsRecorded : Obligations.UnwrittenReadIsRecorded :=
  fun _ _ _ h => ⟨fun _ hs => exec_keeps_record hs h, fun hs => exec_uninit_of_no_record hs h⟩

/-- Settles O55: the command completes, and the run then ends by the record it left. -/
theorem unwrittenReadHasNoMeaningInRun : Obligations.UnwrittenReadHasNoMeaningInRun := by
  intro i s hs
  refine ⟨fun r => runCommand_of_unwritten_read hs, fun hreads => ?_⟩
  obtain ⟨t, h⟩ := exec_completes i s
  exact ⟨t, h, runCommand_of_reads_written hs hreads h⟩

end Sys2Proof.Machine

/-! # The reset and hazards family: power-on, the SAMPLE before the first BLOCK, the end of a run
(70_reset_and_hazards.md) -/

namespace Sys2Proof.Machine

/-! ## The end of a run (R301, R264) -/

section
variable {s : State} {r : Reg}

/-- The first command of a run that finds a record keeps it, so the run stops there with the fault. -/
theorem runCommand_of_record (hs : s.uninit = some r) (i : Instr) : runCommand i s = .fault (.uninit r) := by
  obtain ⟨t, h⟩ := exec_completes i s
  rw [runCommand_eq h, endOfRun_of_record (exec_keeps_record hs h)]

theorem runCommands_of_record (hs : s.uninit = some r) :
    ∀ commands : List Instr, runCommands commands s = .fault (.uninit r)
  | [] => endOfRun_of_record hs
  | i :: _ => by rw [runCommands, runCommand_of_record hs i]

theorem State.not_final_of_record (hs : s.uninit = some r) : ¬ s.Final := by
  rw [State.Final, endOfRun_of_record hs]
  exact nofun

end

/-- Settles O56: a run that carries a record stops at its first command, or at its end where it has none. -/
theorem faultedRunHasNoEnd : Obligations.FaultedRunHasNoEnd :=
  fun commands _ _ hs => ⟨runCommands_of_record hs commands, State.not_final_of_record hs⟩

/-! ## A SAMPLE before the first BLOCK (R295, R298, R218) -/

section
variable {s t : State} {x : Word}

/-- A whole turn consumes no table step, so the phase, the level and the direction stay (R32, R153). -/
theorem exec_sample_still_of_whole_turn (hs : s.AllInRange) (hdt : s.read .lfoDt = 1073741824)
    (h : exec (.sample x) s = .next t) :
    t.get .lfoT = s.get .lfoT ∧ t.get .lfoOut = s.get .lfoOut ∧ t.get .lfoDir = s.get .lfoDir := by
  have hadmits : ∀ r : Reg, r.Admits (s.read r) := fun r => (inRange_iff_admits s r).1 (hs r)
  obtain ⟨hidx, hphase⟩ := phase_of_whole_turn (hadmits .lfoT) hdt
  have hT : t.read .lfoT = s.read .lfoT := (exec_sample_read_lfoT h).trans hphase
  have hOut : t.read .lfoOut = s.read .lfoOut :=
    (exec_sample_read_lfoOut (hadmits .lfoTh) (hadmits .lfoOut) h).trans (if_pos hidx)
  have hDir : t.read .lfoDir = s.read .lfoDir :=
    (exec_sample_read_lfoDir (hadmits .lfoDir) h).trans (if_neg fun hcross => hcross.1 hidx)
  exact ⟨State.get_eq_of_read_eq hT, State.get_eq_of_read_eq hOut, State.get_eq_of_read_eq hDir⟩

/-- A depth scale of 0 leaves nothing of the fold (R212, R218). -/
theorem exec_sample_offset_of_no_depth (hscale : s.read .pDepthScale = 0) (h : exec (.sample x) s = .next t) :
    offset t = 0 := by
  rw [exec_sample_offset h, hscale, mul_zero, Int.zero_ediv]

end

/-- Settles O58: the increment INIT leaves stills the LFO, and the depth scale INIT leaves silences the offset. -/
theorem sampleBeforeBlockIsStill : Obligations.SampleBeforeBlockIsStill := by
  intro x s hs hdt hscale
  obtain ⟨t, h⟩ := exec_completes (.sample x) s
  obtain ⟨hT, hOut, hDir⟩ := exec_sample_still_of_whole_turn hs hdt h
  have hevents := exec_sample_events h
  rw [exec_sample_offset_of_no_depth hscale h] at hevents
  exact ⟨t, _, _, _, h, hT, hOut, hDir, hevents⟩

/-! ## Power-on (R290) -/

@[simp] theorem State.written_reset (r : Reg) : State.reset.written r = false := by cases r <;> rfl

/-- Settles O10: by the validity of each register at power-on. -/
theorem powerOnState : Obligations.PowerOnState := ⟨State.written_reset, rfl, rfl⟩

/-- Settles O50: the invariant speaks of written registers only, and none is. -/
theorem powerOnWrittenInRange : Obligations.PowerOnWrittenInRange := by
  intro _ r hwritten
  rw [State.written_reset] at hwritten
  exact absurd hwritten Bool.false_ne_true

end Sys2Proof.Machine
